-- ==== Sys2Proof/Config.lean ====
section
/-!
DEFINITION. The parameters of 00_scope.md R7: the fixed sizes as constants, and the parameters marked OPEN as a
structure. "A parameter marked OPEN is an argument of the model, with the default shown": the argument is carried,
never changed, by the machine's state (log 1), so a statement about every state is one about every choice of them.
No value of this hardware is left undefined, so there is no opaque constant here (INVENTORY.md).
-/

namespace Sys2Proof

namespace Config

/-- `CHUNK_BYTES` (00_scope.md R7). -/
abbrev chunkBytes : Nat := 5

/-- `WORDS_PER_CHUNK` (00_scope.md R7). -/
abbrev wordsPerChunk : Nat := 2

/-- `WORD_BITS`: an event word satisfies `w < 2^20` (00_scope.md R7, 30_encoding.md R61). -/
abbrev wordBits : Nat := 20

/-- `SUBFRAME_LEN` in bytes (00_scope.md R7, 20_memory.md R41). -/
abbrev subframeLen : Nat := 495

/-- `PACKET_LEN`, on the text path, outside the block (00_scope.md R7). -/
abbrev packetLen : Nat := 512

/-- `SUBFRAME_OFFSET`, outside the block (00_scope.md R7, 20_memory.md R42). -/
abbrev subframeOffset : Nat := 7

/-- `RECORD_BYTES` (00_scope.md R7). -/
abbrev recordBytes : Nat := 4

/-- `RAW_DATA_BIAS`, added modulo 65536 (00_scope.md R7, 42_event_record_decoder.md R152). -/
abbrev rawDataBias : Nat := 32768

/-- The regions of a packet, each with its length, in the source's order (20_memory.md R42). Interface context
only: no rule of the block reads it. -/
def packetRegions : List (String × Nat) :=
  [("header", 1), ("timestamp", 6), ("STEIN sub-frame", 495), ("housekeeping", 8), ("spare", 2)]

end Config

/-- The OPEN parameters of 00_scope.md R7, fixed when the model is instantiated, before reset (10_state.md R26,
70_reset_and_hazards.md R232), each with the spec's default. -/
structure Config where
  /-- `SEQ_START`: the first sequence index (92_eei_decisions.md D6). -/
  seqStart : Nat := 0
  /-- `SEQ_WIDTH`: `none` is the default, unbounded (92_eei_decisions.md D7). -/
  seqWidth : Option Nat := none
  /-- `SKIP_CONSUMES_INDEX`: whether a skipped event consumes an index (92_eei_decisions.md D9). -/
  skipConsumesIndex : Bool := false
  deriving DecidableEq, Repr

/-- The parameters at the spec's defaults (00_scope.md R7). -/
def Config.standard : Config := { seqStart := 0, seqWidth := none, skipConsumesIndex := false }

end Sys2Proof
end

