-- ==== Sys2Proof/Word.lean ====
section
/-!
DEFINITION. The byte, and the two fixed groups of bytes the units read: a chunk of U1 and a record of U3.
Every other value of the block is an unsigned natural number (00_scope.md R8), so event words, indices and event
fields are `Nat`.
-/

namespace Sys2Proof

/-- An unsigned byte, 0 to 255 (`BYTE_BITS` = 8, 00_scope.md R7; 20_memory.md R41). -/
abbrev Byte := BitVec 8

/-- One chunk of a sub-frame: five bytes in stream order (20_memory.md R43, 30_encoding.md R60). -/
structure Chunk40 where
  b0 : Byte
  b1 : Byte
  b2 : Byte
  b3 : Byte
  b4 : Byte
  deriving DecidableEq, Repr

/-- One record of the raw-binary stream: four bytes in stream order (20_memory.md R44, 30_encoding.md R69). -/
structure Rec32 where
  r0 : Byte
  r1 : Byte
  r2 : Byte
  r3 : Byte
  deriving DecidableEq, Repr

end Sys2Proof
end

