-- ==== Sys2Proof/Machine/Operands.lean ====
section
/-!
DEFINITION. The operand forms: bit slices of a natural number in both of the spec's numberings, reading bytes of an
input sequence, and the grouping of a sequence into chunks and records.
-/

namespace Sys2Proof.Machine

/-- `v[hi:lo]`, bits numbered from 0 at the least significant bit (00_scope.md R8). -/
def bits (v hi lo : Nat) : Nat := (v >>> lo) % 2 ^ (hi - lo + 1)

/-- The source's `bits[a..b)` of a 20-bit word, offsets measured from the most significant bit (00_scope.md R9). -/
def bitsMsb (w a b : Nat) : Nat := (w >>> (20 - b)) % 2 ^ (b - a)

/-- The byte of a natural number at bit position `lo`. -/
def byteAt (v lo : Nat) : Byte := BitVec.ofNat 8 (v >>> lo)

/-- `MemRead(S, a, n)`: the `n` bytes from offset `a`; `none` where `a + n` exceeds the length (00_scope.md R12). -/
def memRead (S : List Byte) (a n : Nat) : Option (List Byte) :=
  if a + n ≤ S.length then some ((S.drop a).take n) else none

/-- The whole chunks of a byte sequence, in stream order (20_memory.md R43). Bytes after the last whole chunk are
left out; every caller checks the length first (20_memory.md R48). -/
def chunksOf : List Byte → List Chunk40
  | b0 :: b1 :: b2 :: b3 :: b4 :: rest => ⟨b0, b1, b2, b3, b4⟩ :: chunksOf rest
  | _ => []

/-- The whole records of a byte sequence, in stream order (20_memory.md R44). Bytes after the last whole record are
left out; every caller checks the length first (20_memory.md R48). -/
def recordsOf : List Byte → List Rec32
  | r0 :: r1 :: r2 :: r3 :: rest => ⟨r0, r1, r2, r3⟩ :: recordsOf rest
  | _ => []

/-- The 40-bit number `V = {b4, b3, b2, b1, b0}` a chunk is read as (20_memory.md R45, 30_encoding.md R60). -/
def chunkNumber (b0 b1 b2 b3 b4 : Byte) : Nat :=
  b0.toNat + 2 ^ 8 * b1.toNat + 2 ^ 16 * b2.toNat + 2 ^ 24 * b3.toNat + 2 ^ 32 * b4.toNat

/-- The 32-bit number `R = {r0, r1, r2, r3}` a record is read as (30_encoding.md R69). -/
def recordNumber (r0 r1 r2 r3 : Byte) : Nat :=
  2 ^ 24 * r0.toNat + 2 ^ 16 * r1.toNat + 2 ^ 8 * r2.toNat + r3.toNat

end Sys2Proof.Machine
end

