-- ==== Sys2Proof/Syntax.lean ====
section
/-!
DEFINITION. What the block is given (`Request`) and what it executes (`Instr`, one constructor per row of
spec/opcode_table.json).
-/

namespace Sys2Proof

/-- A host command (43_stream_sequencer.md R170; 30_encoding.md R79). -/
inductive HostCommand where
  /-- `SUBFRAME h h h ...`: the listed bytes, as `S`. -/
  | subframe (bytes : List Byte)
  /-- `RECORDS h h h ...`: the listed bytes, as `B`. -/
  | records (bytes : List Byte)
  deriving DecidableEq, Repr

/-- A unit operation called directly, with its inputs: no host command, and so no part of a program
(30_encoding.md R79). -/
inductive UnitCall where
  /-- `UNPACK5 h h h h h`: the bytes of one chunk. -/
  | unpack5 (bytes : List Byte)
  /-- UNPACK_SEQ on a byte sequence (10_state.md R24; the notation of R79 gives it no spelling, log 12). -/
  | unpackSeq (bytes : List Byte)
  /-- `DECODE_WORD x idx`: the word input, a natural number (92_eei_decisions.md D21), and the index. -/
  | decodeWord (w idx : Nat)
  /-- `DECODE_RECORD h h h h idx`: the bytes of one record, and the index. -/
  | decodeRecord (bytes : List Byte) (idx : Nat)
  deriving DecidableEq, Repr

/-- What the block receives to execute (30_encoding.md R79, column "encoding"): a host command of the program, or a
direct call of a unit (log 4). -/
inductive Request where
  | command (c : HostCommand)
  | call (u : UnitCall)
  deriving DecidableEq, Repr

/-- The five layouts of a 20-bit event word (30_encoding.md R62 to R67). -/
inductive Variant where
  | data | sweepTrig | sweepEvt | noise | status
  deriving DecidableEq, Repr

/-- Why the decoder rejects a request, by name. Every format has a fixed length (30_encoding.md R74), so an input of
another length is no instruction of the block (DESIGN CHOICE, safe: log 9). -/
inductive DecodeError where
  /-- a chunk input that is not 5 bytes; carries the number of bytes -/
  | chunkSize (n : Nat)
  /-- a record input that is not 4 bytes; carries the number of bytes -/
  | recordSize (n : Nat)
  /-- a word that no row of the variant table selects: there is none (30_encoding.md R72, R73) -/
  | noVariant (w : Nat)
  deriving DecidableEq, Repr

/-- The operations of spec/opcode_table.json, one constructor per row, with the input operand fields of
10_state.md R24. The five EVW rows are DECODE_WORD on a word of their variant: the operand is the word itself, a
natural number that may exceed 20 bits (41_event_word_decoder.md R120, R121). -/
inductive Instr where
  /-- UNPACK5 (40_bit_unpacker.md R100) -/
  | unpack5 (b0 b1 b2 b3 b4 : Byte)
  /-- UNPACK_SEQ (40_bit_unpacker.md R102) -/
  | unpackSeq (bytes : List Byte)
  /-- EVW_DATA: DECODE_WORD, code 0 (41_event_word_decoder.md R122) -/
  | evwData (w idx : Nat)
  /-- EVW_SWEEP_TRIG: DECODE_WORD, code 1 (41_event_word_decoder.md R123) -/
  | evwSweepTrig (w idx : Nat)
  /-- EVW_SWEEP_EVT: DECODE_WORD, code 2 (41_event_word_decoder.md R124) -/
  | evwSweepEvt (w idx : Nat)
  /-- EVW_NOISE: DECODE_WORD, code 3 with add 0 (41_event_word_decoder.md R126) -/
  | evwNoise (w idx : Nat)
  /-- EVW_STATUS: DECODE_WORD, code 3 with add 1 (41_event_word_decoder.md R127) -/
  | evwStatus (w idx : Nat)
  /-- DECODE_RECORD (42_event_record_decoder.md R150) -/
  | decodeRecord (r0 r1 r2 r3 : Byte) (idx : Nat)
  /-- SUBFRAME (43_stream_sequencer.md R171) -/
  | subframe (bytes : List Byte)
  /-- RECORDS (43_stream_sequencer.md R172) -/
  | records (bytes : List Byte)
  deriving DecidableEq, Repr

end Sys2Proof
end

