-- ==== Sys2Proof/WellFormed.lean ====
section
/-!
DEFINITION. Well-formed instructions: an EVW row's word must be one that the row selects.
-/

namespace Sys2Proof

/-- "A word `w` selects a variant when `w & mask = match`" (30_encoding.md R68). The masks look at bits 19 to 17
only, so a word of 2^20 or more is admitted under the row its low bits select: its execution raises UnreachableCode
(41_event_word_decoder.md R121; log 7). Every operand of the other rows is admitted: "every one of the 2^40 chunk
values is valid" (R60), every record value is (R69), and a wrong length of a sequence is an error its execution
raises (40_bit_unpacker.md R103, 43_stream_sequencer.md R171, R172). -/
def Instr.wellFormed : Instr → Bool
  | .unpack5 _ _ _ _ _ => true
  | .unpackSeq _ => true
  | .evwData w _ => w &&& 0xC0000 == 0x00000
  | .evwSweepTrig w _ => w &&& 0xC0000 == 0x40000
  | .evwSweepEvt w _ => w &&& 0xC0000 == 0x80000
  | .evwNoise w _ => w &&& 0xE0000 == 0xC0000
  | .evwStatus w _ => w &&& 0xE0000 == 0xE0000
  | .decodeRecord _ _ _ _ _ => true
  | .subframe _ => true
  | .records _ => true

end Sys2Proof
end

