-- ==== Sys2Proof/Decode.lean ====
section
/-!
DEFINITION. The decoder, from what the block receives to an instruction; the encoder, back; the numbers under which
spec/opcode_table.json counts the bits of a chunk, a word and a record; and the packing of a word's and a record's
fields, each from the layout tables of 30_encoding.md.
-/

namespace Sys2Proof

/-- One row of the variant table: `w` selects the row when `w & mask = pattern` (30_encoding.md R68). -/
structure VariantRow where
  variant : Variant
  pattern : Nat
  mask : Nat
  deriving DecidableEq, Repr

/-- The match and mask columns of 30_encoding.md R68. -/
def variantTable : List VariantRow :=
  [⟨.data, 0x00000, 0xC0000⟩, ⟨.sweepTrig, 0x40000, 0xC0000⟩, ⟨.sweepEvt, 0x80000, 0xC0000⟩,
   ⟨.noise, 0xC0000, 0xE0000⟩, ⟨.status, 0xE0000, 0xE0000⟩]

/-- The word selects this row (30_encoding.md R68). -/
def VariantRow.selects (row : VariantRow) (w : Nat) : Bool := w &&& row.mask == row.pattern

/-- The variant a word selects (30_encoding.md R68, R72). -/
def selectVariant (w : Nat) : Option Variant := (variantTable.find? (·.selects w)).map (·.variant)

/-- The DECODE_WORD instruction of a variant. -/
def Variant.instr (v : Variant) (w idx : Nat) : Instr :=
  match v with
  | .data => .evwData w idx
  | .sweepTrig => .evwSweepTrig w idx
  | .sweepEvt => .evwSweepEvt w idx
  | .noise => .evwNoise w idx
  | .status => .evwStatus w idx

/-- The decoder: total on every request, rejecting by name. The unit that reads an item is given with it, so no
length has to be found (30_encoding.md R74). -/
def decode : Request → Except DecodeError Instr
  | .command (.subframe bytes) => .ok (.subframe bytes)
  | .command (.records bytes) => .ok (.records bytes)
  | .call (.unpack5 [b0, b1, b2, b3, b4]) => .ok (.unpack5 b0 b1 b2 b3 b4)
  | .call (.unpack5 bytes) => .error (.chunkSize bytes.length)
  | .call (.unpackSeq bytes) => .ok (.unpackSeq bytes)
  | .call (.decodeWord w idx) =>
    match selectVariant w with
    | some v => .ok (v.instr w idx)
    | none => .error (.noVariant w)
  | .call (.decodeRecord [r0, r1, r2, r3] idx) => .ok (.decodeRecord r0 r1 r2 r3 idx)
  | .call (.decodeRecord bytes _) => .error (.recordSize bytes.length)

/-- The encoder: what the block receives for an instruction (30_encoding.md R79, column "encoding"). -/
def encode : Instr → Request
  | .unpack5 b0 b1 b2 b3 b4 => .call (.unpack5 [b0, b1, b2, b3, b4])
  | .unpackSeq bytes => .call (.unpackSeq bytes)
  | .evwData w idx => .call (.decodeWord w idx)
  | .evwSweepTrig w idx => .call (.decodeWord w idx)
  | .evwSweepEvt w idx => .call (.decodeWord w idx)
  | .evwNoise w idx => .call (.decodeWord w idx)
  | .evwStatus w idx => .call (.decodeWord w idx)
  | .decodeRecord r0 r1 r2 r3 idx => .call (.decodeRecord [r0, r1, r2, r3] idx)
  | .subframe bytes => .command (.subframe bytes)
  | .records bytes => .command (.records bytes)

/-! ### Packing the fields of a word and of a record -/

/-- The word `00dddddttttttvvvvvvv` of its fields (30_encoding.md R62). -/
def packData (d t v : Nat) : Nat := (d <<< 13) ||| (t <<< 7) ||| v

/-- The word `01ttttttvvvvvvvvvvvv` of its fields (30_encoding.md R63). -/
def packSweepTrig (t v : Nat) : Nat := (1 <<< 18) ||| (t <<< 12) ||| v

/-- The word `10ttttttvvvvvvvvvvvv` of its fields (30_encoding.md R64). -/
def packSweepEvt (t v : Nat) : Nat := (2 <<< 18) ||| (t <<< 12) ||| v

/-- The word `110dvvvvvvvvvvvvvvvv` of its fields (30_encoding.md R66). -/
def packNoise (d v : Nat) : Nat := (3 <<< 18) ||| (d <<< 16) ||| v

/-- The word `111ttttttttvvvvvvvvv` of its fields (30_encoding.md R67). -/
def packStatus (t v : Nat) : Nat := (3 <<< 18) ||| (1 <<< 17) ||| (t <<< 9) ||| v

/-- The record `ccadddddttttttttvvvvvvvvvvvvvvvv` of its fields, as the number `R` (30_encoding.md R69). -/
def packRecord (c a d t v : Nat) : Nat :=
  (c <<< 30) ||| (a <<< 29) ||| (d <<< 24) ||| (t <<< 16) ||| v

/-! ### The numbering of spec/opcode_table.json -/

/-- The unit call whose input is the bits `w` of a table row, least significant first: `nbits` tells the format,
because the three formats have different widths (30_encoding.md R74). A 40-bit chunk is numbered little-endian (R60),
a 32-bit record big-endian (R69). A word row has 20 bits, 24 in whole bytes. The index operand has no bits in the
table and is 0. The rows without a width (UNPACK_SEQ, SUBFRAME, RECORDS) have no number, so they are not reached
from here (log 10). -/
def tableCall (nbits w : Nat) : Option UnitCall :=
  match nbits with
  | 20 => some (.decodeWord w 0)
  | 24 => some (.decodeWord w 0)
  | 32 => some (.decodeRecord [Machine.byteAt w 24, Machine.byteAt w 16, Machine.byteAt w 8, Machine.byteAt w 0] 0)
  | 40 => some (.unpack5 [Machine.byteAt w 0, Machine.byteAt w 8, Machine.byteAt w 16, Machine.byteAt w 24,
      Machine.byteAt w 32])
  | _ => none

/-- The instruction the decoder reads from a table row's bits; `none` where it refuses. -/
def decodeTableWord (nbits w : Nat) : Option Instr :=
  match tableCall nbits w with
  | some u => (decode (.call u)).toOption
  | none => none

/-- A table row's bits for an instruction: how many, in whole bytes, and the number they make; `none` for the rows
without a width. -/
def tableWord : Instr → Option (Nat × Nat)
  | .unpack5 b0 b1 b2 b3 b4 => some (40, Machine.chunkNumber b0 b1 b2 b3 b4)
  | .evwData w _ => some (24, w)
  | .evwSweepTrig w _ => some (24, w)
  | .evwSweepEvt w _ => some (24, w)
  | .evwNoise w _ => some (24, w)
  | .evwStatus w _ => some (24, w)
  | .decodeRecord r0 r1 r2 r3 _ => some (32, Machine.recordNumber r0 r1 r2 r3)
  | .unpackSeq _ => none
  | .subframe _ => none
  | .records _ => none

end Sys2Proof
end

