-- ==== Sys2Proof/Machine/State.lean ====
section
/-!
DEFINITION. The state of the stream sequencer: the triple `(seq, log, cmd)` of 10_state.md R28, the parameters and
the program it runs under, the direct unit calls that wait, and the output operand fields of the last operation. Plain
data throughout.
The block has no addressable memory (20_memory.md R40), so there is no memory field.
-/

namespace Sys2Proof.Machine

/-- The six errors of 60_exceptions.md R200, by name. -/
inductive ErrorName where
  | unreachableCode | unreachableAdd | chunkLength | subframeLength | recordLength | seqOverflow
  deriving DecidableEq, Repr

/-- An error a unit raises: its name and the information 60_exceptions.md R200 names for it. -/
structure Raised where
  name : ErrorName
  info : Nat
  deriving DecidableEq, Repr

/-- An error report (60_exceptions.md R201). -/
structure ErrorReport where
  code : Nat
  name : ErrorName
  info : Nat
  cmd : Nat
  seq : Nat
  deriving DecidableEq, Repr

/-- A Decoded Event (30_encoding.md R70). An absent field is `none`, never a number (00_scope.md R11). -/
structure Event where
  idx : Nat
  code : Nat
  add : Option Nat
  detId : Option Nat
  timestamp : Option Nat
  data : Nat
  deriving DecidableEq, Repr

/-- An entry of the output log: `Ev e` or `Err r` (10_state.md R22). -/
inductive Entry where
  | ev (e : Event)
  | err (r : ErrorReport)
  deriving DecidableEq, Repr

/-- The output operand fields of one operation (10_state.md R24). The host commands have none: their outputs are the
entries they append. -/
inductive Output where
  | idle
  /-- UNPACK5: `event1`, `event2` -/
  | words (event1 event2 : Nat)
  /-- UNPACK_SEQ: `W` -/
  | wordSeq (W : List Nat)
  /-- DECODE_WORD and DECODE_RECORD: `ev` -/
  | event (e : Event)
  /-- the error a unit operation raised in place of its output -/
  | error (r : Raised)
  deriving DecidableEq, Repr

/-- The state. `seq`, `log` and `cmd` are the spec's whole architectural state (10_state.md R28). -/
structure State where
  /-- the OPEN parameters, constant (00_scope.md R7, 10_state.md R26; DESIGN CHOICE to carry them here, log 1) -/
  cfg : Config
  /-- the host's program `P` (43_stream_sequencer.md R170; DESIGN CHOICE to carry it here, log 2) -/
  program : List HostCommand
  /-- the unit operations the host called directly and that have not run yet, the next one first; the MODEL's own field,
  no part of the spec's state (DESIGN CHOICE, log 4) -/
  calls : List UnitCall
  /-- the index register: the sequence index the next emitted event will carry (10_state.md R21) -/
  seq : Nat
  /-- the output log, append-only (10_state.md R22) -/
  log : List Entry
  /-- the command pointer: the position in `program` of the next command (10_state.md R23) -/
  cmd : Nat
  /-- the output operand fields of the last operation; no operation reads them (10_state.md R24; log 3) -/
  out : Output
  deriving DecidableEq, Repr

/-- Why the machine has no next state. -/
inductive Fault where
  /-- No unit call waits and there is no command at `cmd`: the program has ended, "no step"
  (43_stream_sequencer.md R170, 70_reset_and_hazards.md R236). Raised by `step`. Safe: it is the spec's own end of a run. -/
  | noCommand
  /-- A SeqOverflow stopped the sequencer: "the sequencer has no further step: it is stopped for good"
  (43_stream_sequencer.md R175). Raised by `step`. Safe: it is the spec's own end of a run. -/
  | stopped
  deriving DecidableEq, Repr

/-- Why an instruction has no meaning here. -/
inductive Refusal where
  /-- The instruction has no meaning in the model yet. Raised by `exec`'s arms only, and by none of them now.
  Safe: nothing is claimed of such an instruction. -/
  | notModelled (mnemonic : String)
  /-- A unit call gives a chunk that is not 5 bytes or a record that is not 4: no instruction of the block
  (30_encoding.md R74). Raised by `step`, when the decoder rejects. Safe: no run goes on from it (log 9). -/
  | malformed (e : DecodeError)
  deriving DecidableEq, Repr

/-- How one unit of a command ended: the command goes on with the next unit, or it stops at this point
(43_stream_sequencer.md R175). -/
inductive Progress where
  | more (s : State)
  | halt (s : State)
  deriving DecidableEq, Repr

/-- Reset under given parameters (70_reset_and_hazards.md R230): `seq <- SEQ_START`, `log <- []`, `cmd <- 0`. No
program is given yet, no unit call waits, and the output operand fields hold nothing (logs 2, 4 and 3). -/
def State.resetWith (cfg : Config) : State :=
  { cfg := cfg, program := [], calls := [], seq := cfg.seqStart, log := [], cmd := 0, out := .idle }

/-- The machine right after reset, with the spec's default parameters (00_scope.md R7, 10_state.md R28). -/
def State.reset : State := State.resetWith Config.standard

end Sys2Proof.Machine
end

