-- ==== Sys2Proof/Machine/Ops.lean ====
section
/-!
DEFINITION. The named operations over the state: writing its fields, raising an error, emitting an event, assigning
the index, the loop over the units of a command, and what a step does around the execution of a command.
-/

namespace Sys2Proof.Machine

/-- The numeric code of an error (60_exceptions.md R200). -/
def ErrorName.code : ErrorName → Nat
  | .unreachableCode => 1
  | .unreachableAdd => 2
  | .chunkLength => 3
  | .subframeLength => 4
  | .recordLength => 5
  | .seqOverflow => 6

/-- `seq <- v` (00_scope.md R12). -/
def State.setSeq (s : State) (v : Nat) : State := { s with seq := v }

/-- `cmd <- v` (43_stream_sequencer.md R170). -/
def State.setCmd (s : State) (v : Nat) : State := { s with cmd := v }

/-- Writes the unit calls that wait (log 4). -/
def State.setCalls (s : State) (us : List UnitCall) : State := { s with calls := us }

/-- Writes the output operand fields (10_state.md R24). -/
def State.setOut (s : State) (o : Output) : State := { s with out := o }

/-- Appends one entry to the log (10_state.md R22). -/
def State.append (s : State) (e : Entry) : State := { s with log := s.log ++ [e] }

/-- The report of an error raised in state `s` (60_exceptions.md R201): `cmd` and `seq` are their values when it is
raised. -/
def State.report (s : State) (e : Raised) : ErrorReport :=
  { code := e.name.code, name := e.name, info := e.info, cmd := s.cmd, seq := s.seq }

/-- Raising an error: the ONE effect on the state is that its report is appended to the log
(60_exceptions.md R202). What the raising unit leaves out, and where processing resumes (R203), stands where it is
raised. -/
def State.raise (s : State) (e : Raised) : State := s.append (.err (s.report e))

/-- `emit ev` (00_scope.md R12). -/
def State.emit (s : State) (ev : Event) : State := s.append (.ev ev)

/-- The report is a SeqOverflow. -/
def Entry.isOverflow : Entry → Bool
  | .ev _ => false
  | .err r => r.name == .seqOverflow

/-- The sequencer "is stopped for good": a SeqOverflow was raised since reset (43_stream_sequencer.md R175). The log
itself tells, because nothing else is written by raising and no report is ever removed (60_exceptions.md R202;
log 8). -/
def State.stopped (s : State) : Bool := s.log.any Entry.isOverflow

/-- What `check_index()` tests: `SEQ_WIDTH` is unbounded, or `seq < 2^SEQ_WIDTH` (43_stream_sequencer.md R175). -/
def State.indexFits (s : State) : Bool :=
  match s.cfg.seqWidth with
  | none => true
  | some n => s.seq < 2 ^ n

/-- `check_index(); emit ev; seq <- seq + 1` (43_stream_sequencer.md R171, R172, R173, R175). When the index does not
fit, SeqOverflow is raised, the event is not emitted and the command stops at that point. -/
def State.deliver (s : State) (ev : Event) : Progress :=
  if s.indexFits then .more ((s.emit ev).setSeq (s.seq + 1))
  else .halt (s.raise ⟨.seqOverflow, s.seq⟩)

/-- An event skipped for an unreachable-state error: the error is raised, and the index is consumed only where
SKIP_CONSUMES_INDEX says so (43_stream_sequencer.md R171, R174). -/
def State.skipEvent (s : State) (e : Raised) : State :=
  if s.cfg.skipConsumesIndex then (s.raise e).setSeq (s.seq + 1) else s.raise e

/-- The bounded loop of a command over its units, in order (43_stream_sequencer.md R178), left at a unit that stops
the command. -/
def forEach {α : Type} (unit : α → State → Progress) : List α → State → State
  | [], s => s
  | a :: rest, s =>
    match unit a s with
    | .more t => forEach unit rest t
    | .halt t => t

/-- The end of a unit operation that the host calls directly: its result goes to the output operand fields; an error
is raised in place of a result (10_state.md R24, 60_exceptions.md R202; logs 5 and 6). -/
def State.complete {α : Type} (s : State) (result : Except Raised α) (field : α → Output) :
    Host.Outcome State Fault Refusal :=
  match result with
  | .ok a => .next (s.setOut (field a))
  | .error e => .next ((s.raise e).setOut (.error e))

/-- The command at `cmd`, if `cmd < len(P)` (43_stream_sequencer.md R170). -/
def State.fetch (s : State) : Option HostCommand := s.program[s.cmd]?

/-- `cmd <- cmd + 1` after a host command, whether it completed or was skipped for an error (10_state.md R23,
43_stream_sequencer.md R170); after a SeqOverflow "`cmd` does not advance" (R175). -/
def State.advance (s : State) : State := if s.stopped then s else s.setCmd (s.cmd + 1)

/-- What executes next, and the state it executes in: the first unit call that waits, which it consumes, or else the
host command at `cmd` (43_stream_sequencer.md R170; that calls go first is log 4). -/
def State.nextRequest (s : State) : Option (Request × State) :=
  match s.calls with
  | u :: rest => some (.call u, s.setCalls rest)
  | [] => s.fetch.map fun c => (.command c, s)

/-- What follows an execution that answers a next state: the pointer advances after a host command, and "nothing else
writes `cmd`" (10_state.md R23). -/
def finish (r : Request) (o : Host.Outcome State Fault Refusal) : Host.Outcome State Fault Refusal :=
  match r, o with
  | .command _, .next t => .next t.advance
  | .command _, o => o
  | .call _, o => o

/-- Gives the sequencer a program, as the host does before a run (43_stream_sequencer.md R170; log 2). -/
def State.load (s : State) (P : List HostCommand) : State := { s with program := P }

/-- Calls a unit directly, before any call that waits (log 11). -/
def State.placeCall (s : State) (u : UnitCall) : State := s.setCalls (u :: s.calls)

end Sys2Proof.Machine
end

