-- ==== Sys2Proof/Machine/BitUnpacker.lean ====
section
/-!
DEFINITION. U1, the bit-unpacker (40_bit_unpacker.md): the formulas of UNPACK5, their inverse, UNPACK_SEQ, and the two
instructions.
-/

namespace Sys2Proof.Machine

/-- `event1 = ((b2 & 0x0F) << 16) | (b1 << 8) | b0` (40_bit_unpacker.md R100). -/
def event1 (b0 b1 b2 : Byte) : Nat := ((b2.toNat &&& 0x0F) <<< 16) ||| (b1.toNat <<< 8) ||| b0.toNat

/-- `event2 = (b4 << 12) | (b3 << 4) | (b2 >> 4)` (40_bit_unpacker.md R100). -/
def event2 (b2 b3 b4 : Byte) : Nat := (b4.toNat <<< 12) ||| (b3.toNat <<< 4) ||| (b2.toNat >>> 4)

/-- The inverse of UNPACK5 (40_bit_unpacker.md R101). -/
def repack (e1 e2 : Nat) : Chunk40 :=
  { b0 := BitVec.ofNat 8 (e1 &&& 0xFF)
    b1 := BitVec.ofNat 8 ((e1 >>> 8) &&& 0xFF)
    b2 := BitVec.ofNat 8 (((e1 >>> 16) &&& 0x0F) ||| ((e2 &&& 0x0F) <<< 4))
    b3 := BitVec.ofNat 8 ((e2 >>> 4) &&& 0xFF)
    b4 := BitVec.ofNat 8 ((e2 >>> 12) &&& 0xFF) }

/-- The two words of a chunk, `event1` before `event2` (40_bit_unpacker.md R102). -/
def chunkWords (c : Chunk40) : List Nat := [event1 c.b0 c.b1 c.b2, event2 c.b2 c.b3 c.b4]

/-- UNPACK_SEQ: the words of all chunks in stream order, or ChunkLength and no words at all
(40_bit_unpacker.md R102, R103). -/
def unpackSeq (S : List Byte) : Except Raised (List Nat) :=
  if S.length % Config.chunkBytes ≠ 0 then .error ⟨.chunkLength, S.length⟩
  else .ok ((chunksOf S).flatMap chunkWords)

/-- UNPACK5 (40_bit_unpacker.md R100): no error; state unchanged but for the output fields. -/
def execUnpack5 (b0 b1 b2 b3 b4 : Byte) (s : State) : Host.Outcome State Fault Refusal :=
  .next (s.setOut (.words (event1 b0 b1 b2) (event2 b2 b3 b4)))

/-- UNPACK_SEQ (40_bit_unpacker.md R102, R103). -/
def execUnpackSeq (bytes : List Byte) (s : State) : Host.Outcome State Fault Refusal :=
  s.complete (unpackSeq bytes) .wordSeq

end Sys2Proof.Machine
end

