-- ==== Sys2Proof/Machine/EventRecord.lean ====
section
/-!
DEFINITION. U3, the event-record decoder (42_event_record_decoder.md): one fixed layout, no branch on the code or the
add bit (R151), a decoder distinct from U2's (R153, 30_encoding.md R75).
-/

namespace Sys2Proof.Machine

/-- `data_raw = (r2 << 8) | r3` (42_event_record_decoder.md R150): big-endian (20_memory.md R46). -/
def dataRaw (r2 r3 : Byte) : Nat := (r2.toNat <<< 8) ||| r3.toNat

/-- `data = (data_raw + 32768) mod 65536` (42_event_record_decoder.md R152). -/
def biasedData (raw : Nat) : Nat := (raw + Config.rawDataBias) % 65536

/-- DECODE_RECORD (42_event_record_decoder.md R150). -/
def decodeRecord (r0 r1 r2 r3 : Byte) (idx : Nat) : Event :=
  { idx := idx
    code := (r0.toNat >>> 6) &&& 0x3
    add := some ((r0.toNat >>> 5) &&& 0x1)
    detId := some (r0.toNat &&& 0x1F)
    timestamp := some r1.toNat
    data := biasedData (dataRaw r2 r3) }

/-- DECODE_RECORD: no error; state unchanged but for the output field (42_event_record_decoder.md R150, R153). -/
def execDecodeRecord (r0 r1 r2 r3 : Byte) (idx : Nat) (s : State) : Host.Outcome State Fault Refusal :=
  .next (s.setOut (.event (decodeRecord r0 r1 r2 r3 idx)))

end Sys2Proof.Machine
end

