-- ==== Sys2Proof/Machine/Flags.lean ====
section
/-!
DEFINITION. The block has no status flags or condition codes (10_state.md R25): no operation sets or reads one. What
U2 branches on instead, the type code and the add bit, are fields of its input word; they stand here.
-/

namespace Sys2Proof.Machine

/-- The type code `w >> 18` (30_encoding.md R61, 41_event_word_decoder.md R120). It exceeds 3 exactly for
`w ≥ 2^20`. -/
def typeCode (w : Nat) : Nat := w >>> 18

/-- The add bit `(w >> 17) & 1`, that is `w[17]` (30_encoding.md R65, 41_event_word_decoder.md R125). -/
def addBit (w : Nat) : Nat := (w >>> 17) &&& 1

end Sys2Proof.Machine
end

