-- ==== Sys2Proof/Machine/EventWord.lean ====
section
/-!
DEFINITION. U2, the event-word decoder (41_event_word_decoder.md): the five variants, the two guards, DECODE_WORD, and
the five instructions. Pure: nothing here reads the state (R129).
-/

namespace Sys2Proof.Machine

/-- Variant DATA, code 0 (41_event_word_decoder.md R122). -/
def dataEvent (w idx : Nat) : Event :=
  { idx := idx, code := 0, add := none, detId := some ((w >>> 13) &&& 0x1F),
    timestamp := some ((w >>> 7) &&& 0x3F), data := w &&& 0x7F }

/-- Variant SWEEP_TRIG, code 1 (41_event_word_decoder.md R123). -/
def sweepTrigEvent (w idx : Nat) : Event :=
  { idx := idx, code := 1, add := none, detId := none,
    timestamp := some ((w >>> 12) &&& 0x3F), data := w &&& 0xFFF }

/-- Variant SWEEP_EVT, code 2 (41_event_word_decoder.md R124). -/
def sweepEvtEvent (w idx : Nat) : Event :=
  { idx := idx, code := 2, add := none, detId := none,
    timestamp := some ((w >>> 12) &&& 0x3F), data := w &&& 0xFFF }

/-- Variant NOISE, code 3 with add 0 (41_event_word_decoder.md R126). -/
def noiseEvent (w idx : Nat) : Event :=
  { idx := idx, code := 3, add := some 0, detId := some ((w >>> 16) &&& 1),
    timestamp := none, data := w &&& 0xFFFF }

/-- Variant STATUS, code 3 with add 1 (41_event_word_decoder.md R127). -/
def statusEvent (w idx : Nat) : Event :=
  { idx := idx, code := 3, add := some 1, detId := none,
    timestamp := some ((w >>> 9) &&& 0xFF), data := w &&& 0x1FF }

/-- The guard on the code (41_event_word_decoder.md R121): it comes before everything else (60_exceptions.md R205). -/
def guardCode (w : Nat) (result : Except Raised Event) : Except Raised Event :=
  if typeCode w > 3 then .error ⟨.unreachableCode, w⟩ else result

/-- The guard on the add bit of code 3 (41_event_word_decoder.md R128): a dead branch, kept because the rule keeps
it. -/
def guardAdd (w : Nat) (result : Except Raised Event) : Except Raised Event :=
  if addBit w = 0 ∨ addBit w = 1 then result else .error ⟨.unreachableAdd, w⟩

/-- DECODE_WORD: the two-level selection by type code and add bit (41_event_word_decoder.md R120, 30_encoding.md
R72). -/
def decodeWord (w idx : Nat) : Except Raised Event :=
  guardCode w
    (match typeCode w with
    | 0 => .ok (dataEvent w idx)
    | 1 => .ok (sweepTrigEvent w idx)
    | 2 => .ok (sweepEvtEvent w idx)
    | _ => guardAdd w (if addBit w = 0 then .ok (noiseEvent w idx) else .ok (statusEvent w idx)))

/-- EVW_DATA: DECODE_WORD on a word that selects DATA (41_event_word_decoder.md R121, R122). -/
def execEvwData (w idx : Nat) (s : State) : Host.Outcome State Fault Refusal :=
  s.complete (guardCode w (.ok (dataEvent w idx))) .event

/-- EVW_SWEEP_TRIG: DECODE_WORD on a word that selects SWEEP_TRIG (41_event_word_decoder.md R121, R123). -/
def execEvwSweepTrig (w idx : Nat) (s : State) : Host.Outcome State Fault Refusal :=
  s.complete (guardCode w (.ok (sweepTrigEvent w idx))) .event

/-- EVW_SWEEP_EVT: DECODE_WORD on a word that selects SWEEP_EVT (41_event_word_decoder.md R121, R124). -/
def execEvwSweepEvt (w idx : Nat) (s : State) : Host.Outcome State Fault Refusal :=
  s.complete (guardCode w (.ok (sweepEvtEvent w idx))) .event

/-- EVW_NOISE: DECODE_WORD on a word that selects NOISE (41_event_word_decoder.md R121, R126, R128). -/
def execEvwNoise (w idx : Nat) (s : State) : Host.Outcome State Fault Refusal :=
  s.complete (guardCode w (guardAdd w (.ok (noiseEvent w idx)))) .event

/-- EVW_STATUS: DECODE_WORD on a word that selects STATUS (41_event_word_decoder.md R121, R127, R128). -/
def execEvwStatus (w idx : Nat) (s : State) : Host.Outcome State Fault Refusal :=
  s.complete (guardCode w (guardAdd w (.ok (statusEvent w idx)))) .event

end Sys2Proof.Machine
end

