-- ==== Sys2Proof/Machine/Sequencer.lean ====
section
/-!
DEFINITION. The two host commands of the stream sequencer (43_stream_sequencer.md R171, R172). The advance of `cmd`
belongs to the step (R170).
-/

namespace Sys2Proof.Machine

/-- One pass of SUBFRAME's loop: decode the word under the index `seq`; skip it for an error, deliver the event
otherwise (43_stream_sequencer.md R171). -/
def wordUnit (w : Nat) (s : State) : Progress :=
  match decodeWord w s.seq with
  | .error e => .more (s.skipEvent e)
  | .ok ev => s.deliver ev

/-- One pass of RECORDS' loop: decode the record under the index `seq` and deliver the event
(43_stream_sequencer.md R172). -/
def recordUnit (r : Rec32) (s : State) : Progress :=
  s.deliver (decodeRecord r.r0 r.r1 r.r2 r.r3 s.seq)

/-- SUBFRAME(S) (43_stream_sequencer.md R171). The error case of UNPACK_SEQ cannot arise from a sub-frame of 495
bytes (60_exceptions.md R203). A host command has no output fields of its own (10_state.md R24). -/
def execSubframe (bytes : List Byte) (s : State) : Host.Outcome State Fault Refusal :=
  if bytes.length ≠ Config.subframeLen then
    .next ((s.raise ⟨.subframeLength, bytes.length⟩).setOut .idle)
  else
    match unpackSeq bytes with
    | .error e => .next ((s.raise e).setOut .idle)
    | .ok words => .next ((forEach wordUnit words s).setOut .idle)

/-- RECORDS(B) (43_stream_sequencer.md R172). -/
def execRecords (bytes : List Byte) (s : State) : Host.Outcome State Fault Refusal :=
  if bytes.length % Config.recordBytes ≠ 0 then
    .next ((s.raise ⟨.recordLength, bytes.length⟩).setOut .idle)
  else .next ((forEach recordUnit (recordsOf bytes) s).setOut .idle)

end Sys2Proof.Machine
end

