-- ==== Sys2Proof/Machine/Dispatch.lean ====
section
/-!
DEFINITION. `exec`: one arm per row of spec/opcode_table.json, each one call of that instruction's own meaning.
-/

namespace Sys2Proof.Machine

def exec (i : Instr) (s : State) : Host.Outcome State Fault Refusal :=
  match i with
  | .unpack5 b0 b1 b2 b3 b4 => Sys2Proof.Machine.execUnpack5 b0 b1 b2 b3 b4 s
  | .unpackSeq bytes => Sys2Proof.Machine.execUnpackSeq bytes s
  | .evwData w idx => Sys2Proof.Machine.execEvwData w idx s
  | .evwSweepTrig w idx => Sys2Proof.Machine.execEvwSweepTrig w idx s
  | .evwSweepEvt w idx => Sys2Proof.Machine.execEvwSweepEvt w idx s
  | .evwNoise w idx => Sys2Proof.Machine.execEvwNoise w idx s
  | .evwStatus w idx => Sys2Proof.Machine.execEvwStatus w idx s
  | .decodeRecord r0 r1 r2 r3 idx => Sys2Proof.Machine.execDecodeRecord r0 r1 r2 r3 idx s
  | .subframe bytes => Sys2Proof.Machine.execSubframe bytes s
  | .records bytes => Sys2Proof.Machine.execRecords bytes s

end Sys2Proof.Machine
end

