-- ==== Sys2Proof/Machine/Step.lean ====
section
/-!
DEFINITION. One step: a host command of the sequencer (43_stream_sequencer.md R170), or a unit call that waits (log 4);
and placing a unit call where the step takes its next request.
-/

namespace Sys2Proof.Machine

/-- `if cmd < len(P): execute P[cmd]; cmd <- cmd + 1; else: no step` (43_stream_sequencer.md R170). A sequencer
stopped by a SeqOverflow has no further step (R175). A unit call that waits runs first and leaves `cmd` alone (log
4). -/
def step (s : State) : Host.Outcome State Fault Refusal :=
  if s.stopped then .fault .stopped
  else
    match s.nextRequest with
    | none => .fault .noCommand
    | some (r, t) =>
      match decode r with
      | .error e => .refused (.malformed e)
      | .ok i => finish r (exec i t)

/-- The state with a table row's bits placed as the unit call the next step executes (log 11); unchanged for a width
that no row of the table has. -/
def State.withFetchWord (s : State) (nbits w : Nat) : State :=
  match tableCall nbits w with
  | some u => s.placeCall u
  | none => s

end Sys2Proof.Machine
end

