-- ==== Sys2Proof/Machine/EventLine.lean ====
section
/-!
DEFINITION. The printed form of the event list (30_encoding.md R76 to R78), as lists of characters, and the reading of
one event line back.
-/

namespace Sys2Proof.Machine

/-- An unsigned decimal number with no leading zeros (30_encoding.md R76). -/
def decimal (n : Nat) : List Char := Nat.toDigits 10 n

/-- An optional field; an absent one is the literal `-1`, `ABSENT_TEXT` (30_encoding.md R77, 00_scope.md R7). -/
def optionText : Option Nat → List Char
  | some n => decimal n
  | none => ['-', '1']

/-- The fields in the order `index code add det_id timestamp data` (30_encoding.md R76). -/
def eventFields (e : Event) : List (List Char) :=
  [decimal e.idx, decimal e.code, optionText e.add, optionText e.detId, optionText e.timestamp, decimal e.data]

/-- One event line: the six fields separated by a single space, and one newline (30_encoding.md R76). -/
def eventLine (e : Event) : List Char := [' '].intercalate (eventFields e) ++ ['\n']

/-- The header comment line, `# frame / EVCODE / ADD / DET_ID / TIME_STAMP / DATA` (30_encoding.md R78), with the line
terminator of R76. -/
def headerLine : List Char := "# frame / EVCODE / ADD / DET_ID / TIME_STAMP / DATA".toList ++ ['\n']

/-- The lines of a log: the header, then one line per `Ev` entry, in order (30_encoding.md R78,
70_reset_and_hazards.md R233). The spec gives an `Err` entry no line, so it has none here (log 13). -/
def printLog (log : List Entry) : List Char :=
  headerLine ++ log.flatMap fun
    | .ev e => eventLine e
    | .err _ => []

/-- A decimal digit. -/
def isDecimalDigit (c : Char) : Bool := '0' ≤ c && c ≤ '9'

/-- Reads an unsigned decimal number. -/
def readDecimal (cs : List Char) : Option Nat :=
  if cs ≠ [] ∧ cs.all isDecimalDigit then some (Nat.ofDigitChars 10 cs 0) else none

/-- Reads a field that may be absent (30_encoding.md R77). -/
def readOption (cs : List Char) : Option (Option Nat) :=
  if cs = ['-', '1'] then some none else (readDecimal cs).map some

/-- Reads one event line, without its newline, back to the event (30_encoding.md R76, R77). -/
def readEventLine (cs : List Char) : Option Event :=
  match cs.splitOn ' ' with
  | [i, c, a, d, t, v] => do
    let idx ← readDecimal i
    let code ← readDecimal c
    let add ← readOption a
    let detId ← readOption d
    let timestamp ← readOption t
    let data ← readDecimal v
    return { idx, code, add, detId, timestamp, data }
  | _ => none

end Sys2Proof.Machine
end

