-- ==== Sys2Proof/Machine/Spelling.lean ====
section
/-!
DEFINITION. The notation of programs and unit operations (30_encoding.md R79): reading it, and writing it. It carries
no meaning of its own (92_eei_decisions.md D24); what it leaves open (blanks, letter case) is fixed in log 12.
-/

namespace Sys2Proof.Machine

/-- The hexadecimal digits in the order of their values, in the case 95_test_vectors.md writes them. -/
def hexAlphabet : List Char := "0123456789ABCDEF".toList

/-- The value of a hexadecimal digit: its place among them, in either case (log 12). -/
def hexValue (c : Char) : Option Nat := hexAlphabet.idxOf? c.toUpper

/-- The number that a string of hexadecimal digits stands for, most significant digit first. -/
def readHex (cs : List Char) : Option Nat := (cs.mapM hexValue).map (·.foldl (fun acc d => acc * 16 + d) 0)

/-- `h`: "a two-digit hexadecimal byte" (30_encoding.md R79). -/
def readByte : List Char → Option Byte
  | [a, b] => (readHex [a, b]).map (BitVec.ofNat 8)
  | _ => none

/-- `x`: "a hexadecimal word written `0x...`" (30_encoding.md R79). -/
def readWord : List Char → Option Nat
  | '0' :: 'x' :: d :: ds => readHex (d :: ds)
  | _ => none

/-- The count of the token `fill(n,` (30_encoding.md R79). -/
def readFillCount : List Char → Option Nat
  | 'f' :: 'i' :: 'l' :: 'l' :: '(' :: rest => if rest.getLast? = some ',' then readDecimal rest.dropLast else none
  | _ => none

/-- The byte of the token `h)` that ends a fill. -/
def readFillByte (cs : List Char) : Option Byte :=
  if cs.getLast? = some ')' then readByte cs.dropLast else none

/-- A byte list; inside it `fill(n, h)` "stands for `n` copies of byte `h`" (30_encoding.md R79). -/
def readBytes : List (List Char) → Option (List Byte)
  | [] => some []
  | tok :: rest =>
    match readByte tok with
    | some b => (readBytes rest).map (b :: ·)
    | none =>
      match readFillCount tok, rest with
      | some n, tok2 :: rest2 =>
        match readFillByte tok2 with
        | some b => (readBytes rest2).map (List.replicate n b ++ ·)
        | none => none
      | _, _ => none

/-- The tokens of a line: its parts between blanks (log 12). -/
def tokens (cs : List Char) : List (List Char) := (cs.splitOn ' ').filter (· ≠ [])

/-- Reads one line of the notation (30_encoding.md R79): the spelling is its first token. -/
def readRequest (cs : List Char) : Option Request :=
  match tokens cs with
  | [] => none
  | kind :: args =>
    if kind = "SUBFRAME".toList then (readBytes args).map (.command <| .subframe ·)
    else if kind = "RECORDS".toList then (readBytes args).map (.command <| .records ·)
    else if kind = "UNPACK5".toList then (readBytes args).map (.call <| .unpack5 ·)
    else if kind = "UNPACK_SEQ".toList then (readBytes args).map (.call <| .unpackSeq ·)
    else if kind = "DECODE_WORD".toList then
      match args with
      | [x, idx] => do return .call (.decodeWord (← readWord x) (← readDecimal idx))
      | _ => none
    else if kind = "DECODE_RECORD".toList then
      match args.getLast? with
      | some idx => do return .call (.decodeRecord (← readBytes args.dropLast) (← readDecimal idx))
      | none => none
    else none

/-- Reads one line of a program: a host command, and no unit operation (30_encoding.md R79). -/
def readCommand (cs : List Char) : Option HostCommand :=
  match readRequest cs with
  | some (.command c) => some c
  | some (.call _) => none
  | none => none

/-- Reads a program: "a list of host commands, one per line", in line order (30_encoding.md R79). Blank lines are
passed over (log 12). -/
def readProgram (cs : List Char) : Option (List HostCommand) :=
  ((cs.splitOn '\n').filter (tokens · ≠ [])).mapM readCommand

/-- The hexadecimal digit of a value below 16, in upper case. -/
def hexDigit (n : Nat) : Char := hexAlphabet.getD n '0'

/-- A byte as two hexadecimal digits (30_encoding.md R79). -/
def byteText (b : Byte) : List Char := [hexDigit (b.toNat / 16), hexDigit (b.toNat % 16)]

/-- A number's hexadecimal digits, most significant first, in front of `acc`; `fuel` bounds their count. -/
def hexDigits : (fuel n : Nat) → (acc : List Char) → List Char
  | 0, _, acc => acc
  | fuel + 1, n, acc =>
    if n < 16 then hexDigit n :: acc else hexDigits fuel (n / 16) (hexDigit (n % 16) :: acc)

/-- A word as `0x...` (30_encoding.md R79). -/
def wordText (w : Nat) : List Char := '0' :: 'x' :: hexDigits (w + 1) w []

/-- The tokens of a request (30_encoding.md R79; UNPACK_SEQ: log 12). -/
def requestTokens : Request → List (List Char)
  | .command (.subframe bytes) => "SUBFRAME".toList :: bytes.map byteText
  | .command (.records bytes) => "RECORDS".toList :: bytes.map byteText
  | .call (.unpack5 bytes) => "UNPACK5".toList :: bytes.map byteText
  | .call (.unpackSeq bytes) => "UNPACK_SEQ".toList :: bytes.map byteText
  | .call (.decodeWord w idx) => ["DECODE_WORD".toList, wordText w, decimal idx]
  | .call (.decodeRecord bytes idx) => "DECODE_RECORD".toList :: (bytes.map byteText ++ [decimal idx])

/-- Writes a request in the notation, single blanks between its tokens (30_encoding.md R79). -/
def spell (r : Request) : List Char := [' '].intercalate (requestTokens r)

end Sys2Proof.Machine
end

