-- ==== Sys2Proof/Safety.lean ====
section
/-!
DEFINITION. What counts as a good run: the ends of a run (70_reset_and_hazards.md R236), the host's duties (R232,
R233), the invariant of the sequencer's state (43_stream_sequencer.md R173, 30_encoding.md R71, 60_exceptions.md
R201), and the merge of independently decoded commands (43_stream_sequencer.md R177).
-/

namespace Sys2Proof.Machine

/-- The `Ev` entries of a log, in order: the event list (70_reset_and_hazards.md R236). -/
def eventsOf (log : List Entry) : List Event :=
  log.filterMap fun
    | .ev e => some e
    | .err _ => none

/-- The `Err` entries of a log, in order: the reported errors (70_reset_and_hazards.md R236). -/
def reportsOf (log : List Entry) : List ErrorReport :=
  log.filterMap fun
    | .ev _ => none
    | .err r => some r

/-- The run is completed: `cmd = len(P)`, and no SeqOverflow stopped it (70_reset_and_hazards.md R236). That a unit
call that still waits does not count, although a step would still run it, is a DESIGN CHOICE: the spec has no waiting
calls (log 16). -/
def State.completed (s : State) : Bool := s.cmd == s.program.length && !s.stopped

/-- The run is clean: completed, and the log holds no `Err` entry (70_reset_and_hazards.md R236). As for `completed`, a
unit call that still waits does not count, although its step may append an `Err` entry (DESIGN CHOICE, log 16). -/
def State.clean (s : State) : Bool := s.completed && reportsOf s.log == []

/-- A host command, as distinct from a unit operation (43_stream_sequencer.md R170, 30_encoding.md R79). -/
def isHostCommand : Request → Bool
  | .command _ => true
  | .call _ => false

/-- The host's duty on one command (70_reset_and_hazards.md R233): a sub-frame is 495 bytes, a record buffer's length
a multiple of 4. -/
def meetsDuty : HostCommand → Bool
  | .subframe bytes => bytes.length == 495
  | .records bytes => bytes.length % 4 == 0

/-- Unit calls that the decoder accepts, all of them (log 9). -/
def acceptable (us : List UnitCall) : Bool := us.all fun u => (decode (.call u)).isOk

/-- The bounds of an event's fields (30_encoding.md R71): `code ≤ 3`; when present, `add ≤ 1` (R70), `det_id < 32`,
`timestamp < 256`; `data < 65536`. -/
def Event.inBounds (e : Event) : Prop :=
  e.code ≤ 3 ∧ (∀ a ∈ e.add, a ≤ 1) ∧ (∀ d ∈ e.detId, d < 32) ∧ (∀ t ∈ e.timestamp, t < 256) ∧ e.data < 65536

/-- The number of events a log holds. -/
def eventCount (log : List Entry) : Nat := (eventsOf log).length

/-- The invariant of the sequencer's state. The emitted indices are consecutive from `SEQ_START` and `seq` is the next
one (43_stream_sequencer.md R173); every emitted index fits `SEQ_WIDTH` (R175); every event is in bounds
(30_encoding.md R71); every report carries the code of its name, and a `cmd` and `seq` not beyond the present ones
(60_exceptions.md R200, R201). -/
structure State.Consistent (s : State) : Prop where
  indices : (eventsOf s.log).map Event.idx = List.range' s.cfg.seqStart (eventCount s.log)
  next : s.seq = s.cfg.seqStart + eventCount s.log
  fits : ∀ n ∈ s.cfg.seqWidth, ∀ e ∈ eventsOf s.log, e.idx < 2 ^ n
  bounds : ∀ e ∈ eventsOf s.log, e.inBounds
  reports : ∀ r ∈ reportsOf s.log, r.code = r.name.code ∧ r.cmd ≤ s.cmd ∧ r.seq ≤ s.seq

/-- The events of one host command decoded alone, from index 0: what a copy of the units working on this command only
produces (43_stream_sequencer.md R177). -/
def eventsAlone (c : HostCommand) : List Event :=
  match (decode (.command c)).toOption with
  | none => []
  | some i =>
    match exec i State.reset with
    | .next t => eventsOf t.log
    | .fault _ => []
    | .refused _ => []

/-- "Merge and renumber in original packet order": the events get consecutive indices from `n`
(43_stream_sequencer.md R177). -/
def renumber (n : Nat) (events : List Event) : List Event :=
  events.mapIdx fun i e => { e with idx := n + i }

end Sys2Proof.Machine
end

