-- ==== Sys2Proof/Certificates/Slice0/Obligations.lean ====
section
/-!
DEFINITION. The statements for the provers, from the numbered rules of spec/. A statement whose basis is 'derived' rests
on a choice of the model or states a rule in part; its docstring says which. Each that has hypotheses has a witness
`witness_<name>` in Sys2Proof/Tests/Slice0.lean.
-/

open Sys2Proof Sys2Proof.Machine

/-! ### Reset, the step, the ends of a run -/

/-- R230, R28: reset sets `seq` to SEQ_START (default 0), empties the log and sets `cmd` to 0, whatever the
parameters; the machine after reset has the default parameters of R7. -/
def Obligations.ResetLeavesTheSpecValues : Prop :=
  (∀ cfg : Config, (State.resetWith cfg).seq = cfg.seqStart ∧ (State.resetWith cfg).log = [] ∧
    (State.resetWith cfg).cmd = 0 ∧ (State.resetWith cfg).cfg = cfg) ∧
  State.reset.seq = 0 ∧ State.reset.log = [] ∧ State.reset.cmd = 0 ∧
  State.reset.cfg.seqWidth = none ∧ State.reset.cfg.skipConsumesIndex = false

/-- R170, R23, R175: with no unit call waiting, a step is `exec` of the instruction the command at `cmd` decodes to, and
then `cmd` advances by 1, unless that execution left the sequencer stopped. A unit call that waits comes first: a step
is then `exec` of the instruction it decodes to, with the call consumed and nothing done to `cmd`; that calls wait in
the state and go first is the model's choice (log 4). -/
def Obligations.StepRunsTheDecodedCommand : Prop :=
  ∀ (s : State) (i : Instr), s.stopped = false → i.wellFormed = true →
    (∀ c : HostCommand, s.calls = [] → s.program[s.cmd]? = some c → decode (.command c) = .ok i →
      step s = match exec i s with
        | .next t => .next (if t.stopped then t else { t with cmd := t.cmd + 1 })
        | .fault f => .fault f
        | .refused e => .refused e) ∧
    (∀ (u : UnitCall) (rest : List UnitCall), s.calls = u :: rest → decode (.call u) = .ok i →
      step s = exec i { s with calls := rest })

/-- R170, R175, R236: a stopped sequencer has no further step, and with no command at `cmd` and no unit call waiting
there is no step. That "no step" is a Fault of the model is its form (log 8), that calls wait in the state its choice
(log 4). -/
def Obligations.NoStepAfterTheEnd : Prop :=
  (∀ s : State, s.stopped = true → step s = .fault .stopped) ∧
  (∀ s : State, s.stopped = false → s.calls = [] → s.program.length ≤ s.cmd → step s = .fault .noCommand)

/-- R23, R170: a step at a host command that does not leave the sequencer stopped advances `cmd` by exactly 1, whether
the command completed or was skipped for an error. Nothing else writes `cmd`: no step that runs a unit call, and no
execution of an instruction by itself. That a unit call that waits takes a step of its own, before the command, is the
model's choice (log 4). -/
def Obligations.StepAdvancesThePointerByOne : Prop :=
  (∀ s t : State, s.calls = [] → step s = .next t → t.stopped = false → t.cmd = s.cmd + 1) ∧
  (∀ s t : State, s.calls ≠ [] → step s = .next t → t.cmd = s.cmd) ∧
  (∀ (i : Instr) (s t : State), exec i s = .next t → t.cmd = s.cmd)

/-- R175: a step that leaves the sequencer stopped appended a SeqOverflow report as its last entry, does not advance
`cmd`, and has no step after it. -/
def Obligations.OverflowStopsForGood : Prop :=
  ∀ s t : State, step s = .next t → t.stopped = true →
    t.cmd = s.cmd ∧ step t = .fault .stopped ∧
    t.log.getLast? = some (.err { code := 6, name := .seqOverflow, info := t.seq, cmd := s.cmd, seq := t.seq })

/-- R178: every run of a finite program ends, in at most `len(P) - cmd` steps, completed or stopped. Each unit call that
waits takes one step more, and none waits at the end; that is the model's choice (log 4). -/
def Obligations.EveryRunEnds : Prop :=
  ∀ s : State, acceptable s.calls = true → s.stopped = false → s.cmd ≤ s.program.length →
    ∃ (k : Nat) (t : State), k ≤ s.calls.length + (s.program.length - s.cmd) ∧ core.run k s = .next t ∧ t.calls = [] ∧
      (t.completed = true ∨ (t.stopped = true ∧ t.cmd < t.program.length))

/-- R236, R233: with an unbounded index, a program that meets the host's duties runs to a clean end, from every state
that has no report in its log. No unit call waits in that state (log 4). -/
def Obligations.DutifulHostGetsACleanRun : Prop :=
  ∀ s : State, s.cfg.seqWidth = none → s.calls = [] → s.program.all meetsDuty = true → reportsOf s.log = [] →
    s.cmd ≤ s.program.length →
    ∃ t : State, core.run (s.program.length - s.cmd) s = .next t ∧ t.clean = true

/-! ### U1, the bit-unpacker -/

/-- R100: UNPACK5 gives the two words of its formulas, the same in bit-slice form, with no flag, no error and nothing
else written. R100 marks the bit-slice form (the last two clauses) as its own inference. The field the words are seen in
is the model's (log 3). -/
def Obligations.Unpack5GivesTheTwoWords : Prop :=
  ∀ (b0 b1 b2 b3 b4 : Byte) (s : State), ∃ e1 e2 : Nat,
    exec (.unpack5 b0 b1 b2 b3 b4) s = .next { s with out := .words e1 e2 } ∧
    e1 = ((b2.toNat &&& 0x0F) <<< 16) ||| (b1.toNat <<< 8) ||| b0.toNat ∧
    e2 = (b4.toNat <<< 12) ||| (b3.toNat <<< 4) ||| (b2.toNat >>> 4) ∧
    e1 = (((bits b2.toNat 3 0 <<< 8) ||| bits b1.toNat 7 0) <<< 8) ||| bits b0.toNat 7 0 ∧
    e2 = (((bits b4.toNat 7 0 <<< 8) ||| bits b3.toNat 7 0) <<< 4) ||| bits b2.toNat 7 4

/-- R101: both words are below 2^20; UNPACK5 is a bijection between byte quintuples and pairs of 20-bit words, with
the inverse the rule writes out. R101 states the bijection; the bounds below 2^20 and the inverse formulas it marks as
its own inference from R100. -/
def Obligations.Unpack5IsABijection : Prop :=
  (∀ b0 b1 b2 b3 b4 : Byte, event1 b0 b1 b2 < 2 ^ 20 ∧ event2 b2 b3 b4 < 2 ^ 20 ∧
    (let e1 := event1 b0 b1 b2
     let e2 := event2 b2 b3 b4
     b0.toNat = e1 &&& 0xFF ∧ b1.toNat = (e1 >>> 8) &&& 0xFF ∧
     b2.toNat = ((e1 >>> 16) &&& 0x0F) ||| ((e2 &&& 0x0F) <<< 4) ∧
     b3.toNat = (e2 >>> 4) &&& 0xFF ∧ b4.toNat = (e2 >>> 12) &&& 0xFF ∧
     repack e1 e2 = ⟨b0, b1, b2, b3, b4⟩)) ∧
  (∀ e1 e2 : Nat, e1 < 2 ^ 20 → e2 < 2 ^ 20 → ∃! c : Chunk40, event1 c.b0 c.b1 c.b2 = e1 ∧ event2 c.b2 c.b3 c.b4 = e2)

/-- R100, R45: with the chunk read as the 40-bit little-endian number V, the first word is V[19:0] and the second
V[39:20]. R45 marks this equivalence as its own inference from R100. The field the words are seen in is the model's
(log 3). -/
def Obligations.ChunkIsLittleEndian : Prop :=
  ∀ (b0 b1 b2 b3 b4 : Byte) (s : State),
    (let V := b0.toNat + 2 ^ 8 * b1.toNat + 2 ^ 16 * b2.toNat + 2 ^ 24 * b3.toNat + 2 ^ 32 * b4.toNat
     exec (.unpack5 b0 b1 b2 b3 b4) s = .next { s with out := .words (bits V 19 0) (bits V 39 20) })

/-- R102, R103: UNPACK_SEQ of a sequence of whole chunks gives the words in chunk order, event1 before event2, two per
chunk; of another length it raises ChunkLength with the length and returns no words at all. The output field is the
model's (log 3), as is that the step appends the report of a unit operation called directly (log 6). -/
def Obligations.UnpackSeqKeepsChunkOrder : Prop :=
  ∀ (S : List Byte) (s : State),
    (S.length % 5 = 0 → ∃ W : List Nat,
      exec (.unpackSeq S) s = .next { s with out := .wordSeq W } ∧ W.length = 2 * S.length / 5 ∧
      ∀ k < S.length / 5, ∃ b0 b1 b2 b3 b4 : Byte, memRead S (5 * k) 5 = some [b0, b1, b2, b3, b4] ∧
        W[2 * k]? = some (event1 b0 b1 b2) ∧ W[2 * k + 1]? = some (event2 b2 b3 b4)) ∧
    (S.length % 5 ≠ 0 →
      exec (.unpackSeq S) s = .next { s with
        log := s.log ++ [.err { code := 3, name := .chunkLength, info := S.length, cmd := s.cmd, seq := s.seq }]
        out := .error { name := .chunkLength, info := S.length } })

/-- R104, R102: a sub-frame of 495 bytes unpacks into exactly 198 words; R101: every one of them is a 20-bit word. R104
marks the count as its own inference from R102, and R101 the bound as its own from R100. The field the words are seen in
is the model's (log 3). -/
def Obligations.SubframeUnpacksTo198Words : Prop :=
  ∀ (S : List Byte) (s : State), S.length = 495 → ∃ W : List Nat,
    exec (.unpackSeq S) s = .next { s with out := .wordSeq W } ∧ W.length = 198 ∧ ∀ w ∈ W, w < 2 ^ 20

/-! ### U2, the event-word decoder -/

/-- R122: a 20-bit word of code 0 decodes as EVW_DATA, which gives the DATA event and writes nothing else. -/
def Obligations.DataWordGivesItsEvent : Prop :=
  ∀ (w idx : Nat) (s : State), w < 2 ^ 20 → bits w 19 18 = 0 →
    decode (.call (.decodeWord w idx)) = .ok (.evwData w idx) ∧
    exec (.evwData w idx) s = .next { s with
      out := .event {
        idx := idx, code := 0, add := none, detId := some ((w >>> 13) &&& 0x1F),
        timestamp := some ((w >>> 7) &&& 0x3F), data := w &&& 0x7F } }

/-- R123: a 20-bit word of code 1 decodes as EVW_SWEEP_TRIG, which gives the SWEEP_TRIG event and writes nothing
else. -/
def Obligations.SweepTrigWordGivesItsEvent : Prop :=
  ∀ (w idx : Nat) (s : State), w < 2 ^ 20 → bits w 19 18 = 1 →
    decode (.call (.decodeWord w idx)) = .ok (.evwSweepTrig w idx) ∧
    exec (.evwSweepTrig w idx) s = .next { s with
      out := .event {
        idx := idx, code := 1, add := none, detId := none,
        timestamp := some ((w >>> 12) &&& 0x3F), data := w &&& 0xFFF } }

/-- R124: a 20-bit word of code 2 decodes as EVW_SWEEP_EVT, which gives the SWEEP_EVT event and writes nothing else;
the event differs from SWEEP_TRIG's on the same low 18 bits only in its code. -/
def Obligations.SweepEvtWordGivesItsEvent : Prop :=
  (∀ (w idx : Nat) (s : State), w < 2 ^ 20 → bits w 19 18 = 2 →
    decode (.call (.decodeWord w idx)) = .ok (.evwSweepEvt w idx) ∧
    exec (.evwSweepEvt w idx) s = .next { s with
      out := .event {
        idx := idx, code := 2, add := none, detId := none,
        timestamp := some ((w >>> 12) &&& 0x3F), data := w &&& 0xFFF } }) ∧
  (∀ low idx : Nat, low < 2 ^ 18 → ∃ ev : Event,
    decodeWord (0x80000 + low) idx = .ok ev ∧ decodeWord (0x40000 + low) idx = .ok { ev with code := 1 } ∧
    ev.code = 2)

/-- R126, R125: a 20-bit word with w[19:17] = 0b110 decodes as EVW_NOISE, which gives the NOISE event and writes
nothing else. -/
def Obligations.NoiseWordGivesItsEvent : Prop :=
  ∀ (w idx : Nat) (s : State), w < 2 ^ 20 → bits w 19 17 = 0b110 →
    decode (.call (.decodeWord w idx)) = .ok (.evwNoise w idx) ∧
    exec (.evwNoise w idx) s = .next { s with
      out := .event {
        idx := idx, code := 3, add := some 0, detId := some ((w >>> 16) &&& 1),
        timestamp := none, data := w &&& 0xFFFF } }

/-- R127, R125: a 20-bit word with w[19:17] = 0b111 decodes as EVW_STATUS, which gives the STATUS event and writes
nothing else. -/
def Obligations.StatusWordGivesItsEvent : Prop :=
  ∀ (w idx : Nat) (s : State), w < 2 ^ 20 → bits w 19 17 = 0b111 →
    decode (.call (.decodeWord w idx)) = .ok (.evwStatus w idx) ∧
    exec (.evwStatus w idx) s = .next { s with
      out := .event {
        idx := idx, code := 3, add := some 1, detId := none,
        timestamp := some ((w >>> 9) &&& 0xFF), data := w &&& 0x1FF } }

/-- R121, R200 to R202: a word of 2^20 or more, whichever row its low bits select, raises UnreachableCode with the
word: one report, no event, nothing else written; and DECODE_WORD raises it for no other word. That the row is
selected by the low bits is the model's reading (log 7), and so are the output field and who appends the report (logs
3 and 6). -/
def Obligations.WideWordRaisesUnreachableCode : Prop :=
  (∀ (w idx : Nat) (s : State), 2 ^ 20 ≤ w → ∃ i : Instr, decode (.call (.decodeWord w idx)) = .ok i ∧
    exec i s = .next { s with
      log := s.log ++ [.err { code := 1, name := .unreachableCode, info := w, cmd := s.cmd, seq := s.seq }]
      out := .error { name := .unreachableCode, info := w } }) ∧
  (∀ w idx : Nat, decodeWord w idx = .error { name := .unreachableCode, info := w } ↔ 2 ^ 20 ≤ w)

/-- R128: the guard on the add bit never fires: DECODE_WORD never answers UnreachableAdd, and no instruction appends
such a report. -/
def Obligations.AddGuardIsDead : Prop :=
  (∀ w idx info : Nat, decodeWord w idx ≠ .error { name := .unreachableAdd, info := info }) ∧
  (∀ (i : Instr) (s t : State), exec i s = .next t →
    ∀ r ∈ reportsOf t.log, r.name = .unreachableAdd → r ∈ reportsOf s.log)

/-- R68, R72, R73: the five match/mask pairs are disjoint and cover every 20-bit word. -/
def Obligations.EveryWordSelectsOneVariant : Prop :=
  ∀ w : Nat, w < 2 ^ 20 → ∃! row : VariantRow, row ∈ variantTable ∧ w &&& row.mask = row.pattern

/-- R120, R72: for every 20-bit word the row that match and mask select and the two-level selection of DECODE_WORD
give the same event, and no error. -/
def Obligations.DecodeWordIsItsVariants : Prop :=
  ∀ (w idx : Nat) (s : State), w < 2 ^ 20 → ∃ (i : Instr) (ev : Event), decode (.call (.decodeWord w idx)) = .ok i ∧
    i.wellFormed = true ∧ decodeWord w idx = .ok ev ∧ exec i s = .next { s with out := .event ev } ∧ ev.idx = idx

/-- R9 with R62 to R67: every field is the source's slice, by offsets from the most significant bit. -/
def Obligations.FieldsAtTheSourceOffsets : Prop :=
  ∀ w idx : Nat, w < 2 ^ 20 → ∃ ev : Event, decodeWord w idx = .ok ev ∧ ev.code = bitsMsb w 0 2 ∧
    (ev.code = 0 → ev.add = none ∧ ev.detId = some (bitsMsb w 2 7) ∧ ev.timestamp = some (bitsMsb w 7 13) ∧
      ev.data = bitsMsb w 13 20) ∧
    (ev.code = 1 ∨ ev.code = 2 → ev.add = none ∧ ev.detId = none ∧ ev.timestamp = some (bitsMsb w 2 8) ∧
      ev.data = bitsMsb w 8 20) ∧
    (ev.code = 3 ∧ bitsMsb w 2 3 = 0 → ev.add = some 0 ∧ ev.detId = some (bitsMsb w 3 4) ∧ ev.timestamp = none ∧
      ev.data = bitsMsb w 4 20) ∧
    (ev.code = 3 ∧ bitsMsb w 2 3 = 1 → ev.add = some 1 ∧ ev.detId = none ∧ ev.timestamp = some (bitsMsb w 3 11) ∧
      ev.data = bitsMsb w 11 20)

/-- R71, R70: the bounds of an event's fields, for every event DECODE_WORD or DECODE_RECORD gives, and within U2 the
tighter bounds of each variant's widths (R68). R71 states the bounds of code, det_id, timestamp and data for U2 and R70
that of add; that they hold for U3 too R71 marks as its own inference from R69, and the tighter bounds as its own from
R62 to R67. The field an instruction's event is seen in is the model's (log 3). -/
def Obligations.EventFieldsAreInBounds : Prop :=
  (∀ (i : Instr) (s t : State) (ev : Event), exec i s = .next t → t.out = .event ev → ev.inBounds) ∧
  (∀ (w idx : Nat) (ev : Event), decodeWord w idx = .ok ev → ev.inBounds ∧
    (ev.code = 0 → (∀ d ∈ ev.detId, d < 2 ^ 5) ∧ (∀ t ∈ ev.timestamp, t < 2 ^ 6) ∧ ev.data < 2 ^ 7) ∧
    (ev.code = 1 ∨ ev.code = 2 → (∀ t ∈ ev.timestamp, t < 2 ^ 6) ∧ ev.data < 2 ^ 12) ∧
    (ev.code = 3 ∧ ev.add = some 0 → (∀ d ∈ ev.detId, d < 2) ∧ ev.data < 2 ^ 16) ∧
    (ev.code = 3 ∧ ev.add = some 1 → (∀ t ∈ ev.timestamp, t < 2 ^ 8) ∧ ev.data < 2 ^ 9))

/-! ### U3, the event-record decoder -/

/-- R150: DECODE_RECORD gives the event of its formulas, for every record and index, with no error and nothing else
written. -/
def Obligations.RecordGivesItsEvent : Prop :=
  ∀ (r0 r1 r2 r3 : Byte) (idx : Nat) (s : State),
    decode (.call (.decodeRecord [r0, r1, r2, r3] idx)) = .ok (.decodeRecord r0 r1 r2 r3 idx) ∧
    exec (.decodeRecord r0 r1 r2 r3 idx) s = .next { s with
      out := .event {
        idx := idx, code := (r0.toNat >>> 6) &&& 0x3, add := some ((r0.toNat >>> 5) &&& 0x1),
        detId := some (r0.toNat &&& 0x1F), timestamp := some r1.toNat,
        data := (((r2.toNat <<< 8) ||| r3.toNat) + 32768) % 65536 } }

/-- R151: no branch on code or add: every record reports add, det_id and timestamp, and records that differ only in
the code and add bits have the same det_id, timestamp and data. -/
def Obligations.RecordLayoutIgnoresTheCode : Prop :=
  ∀ (r0 r0' r1 r2 r3 : Byte) (idx : Nat), r0.toNat % 32 = r0'.toNat % 32 →
    (let e := decodeRecord r0 r1 r2 r3 idx
     let e' := decodeRecord r0' r1 r2 r3 idx
     e.add.isSome = true ∧ e.detId.isSome = true ∧ e.timestamp.isSome = true ∧
     e' = { e with code := r0'.toNat / 64, add := some (r0'.toNat / 32 % 2) })

/-- R152: the data transform is the addition of 32768 modulo 65536, which is the same as inverting bit 15. R152 marks
the second form as its own inference. -/
def Obligations.BiasInvertsBitFifteen : Prop :=
  ∀ (r0 r1 r2 r3 : Byte) (idx : Nat),
    (let raw := (r2.toNat <<< 8) ||| r3.toNat
     raw < 65536 ∧ (decodeRecord r0 r1 r2 r3 idx).data = (raw + 32768) % 65536 ∧
     (decodeRecord r0 r1 r2 r3 idx).data = raw ^^^ 0x8000)

/-! ### Encodings -/

/-- R62 to R67, R69: packing any field values that the layouts admit into a word or a record, decoding it and executing
it gives those values back: no bit of a layout is dropped or moved. (The table's numbers hold no index operand, so the
decoded index is 0: log 10.) -/
def Obligations.PackedFieldsDecodeBack : Prop :=
  ∀ (idx : Nat) (s : State),
    (∀ d < 2 ^ 5, ∀ t < 2 ^ 6, ∀ v < 2 ^ 7,
      decodeTableWord 24 (packData d t v) = some (.evwData (packData d t v) 0) ∧
      exec (.evwData (packData d t v) idx) s = .next { s with out := .event ⟨idx, 0, none, some d, some t, v⟩ }) ∧
    (∀ t < 2 ^ 6, ∀ v < 2 ^ 12,
      decodeTableWord 24 (packSweepTrig t v) = some (.evwSweepTrig (packSweepTrig t v) 0) ∧
      exec (.evwSweepTrig (packSweepTrig t v) idx) s =
        .next { s with out := .event ⟨idx, 1, none, none, some t, v⟩ }) ∧
    (∀ t < 2 ^ 6, ∀ v < 2 ^ 12,
      decodeTableWord 24 (packSweepEvt t v) = some (.evwSweepEvt (packSweepEvt t v) 0) ∧
      exec (.evwSweepEvt (packSweepEvt t v) idx) s =
        .next { s with out := .event ⟨idx, 2, none, none, some t, v⟩ }) ∧
    (∀ d < 2, ∀ v < 2 ^ 16,
      decodeTableWord 24 (packNoise d v) = some (.evwNoise (packNoise d v) 0) ∧
      exec (.evwNoise (packNoise d v) idx) s = .next { s with out := .event ⟨idx, 3, some 0, some d, none, v⟩ }) ∧
    (∀ t < 2 ^ 8, ∀ v < 2 ^ 9,
      decodeTableWord 24 (packStatus t v) = some (.evwStatus (packStatus t v) 0) ∧
      exec (.evwStatus (packStatus t v) idx) s = .next { s with out := .event ⟨idx, 3, some 1, none, some t, v⟩ }) ∧
    (∀ c < 4, ∀ a < 2, ∀ d < 2 ^ 5, ∀ t < 2 ^ 8, ∀ v < 2 ^ 16, ∃ r0 r1 r2 r3 : Byte,
      decodeTableWord 32 (packRecord c a d t v) = some (.decodeRecord r0 r1 r2 r3 0) ∧
      exec (.decodeRecord r0 r1 r2 r3 idx) s =
        .next { s with out := .event ⟨idx, c, some a, some d, some t, (v + 32768) % 65536⟩ })

/-- R60, R69, R45, R46: under the table's numbering every chunk and every record decodes to the instruction of its own
bytes in stream order: a chunk's number is little-endian, a record's big-endian. -/
def Obligations.TableNumbersKeepTheByteOrder : Prop :=
  (∀ b0 b1 b2 b3 b4 : Byte,
    decodeTableWord 40 (b0.toNat + 2 ^ 8 * b1.toNat + 2 ^ 16 * b2.toNat + 2 ^ 24 * b3.toNat + 2 ^ 32 * b4.toNat) =
      some (.unpack5 b0 b1 b2 b3 b4)) ∧
  (∀ r0 r1 r2 r3 : Byte,
    decodeTableWord 32 (2 ^ 24 * r0.toNat + 2 ^ 16 * r1.toNat + 2 ^ 8 * r2.toNat + r3.toNat) =
      some (.decodeRecord r0 r1 r2 r3 0))

/-- R74, R79: what the decoder accepts is well-formed and encodes back to the same request. -/
def Obligations.DecodedRequestsEncodeBack : Prop :=
  ∀ (r : Request) (i : Instr), decode r = .ok i → i.wellFormed = true ∧ encode i = r

/-- R74, R73: the decoder rejects exactly a chunk that is not 5 bytes and a record that is not 4, and no word at all;
so no host command is rejected. A step whose next unit call is such a request is refused (logs 9 and 4). -/
def Obligations.DecoderRejectsOnlyWrongSizes : Prop :=
  (∀ (r : Request) (e : DecodeError), decode r = .error e ↔
    (∃ bytes : List Byte, r = .call (.unpack5 bytes) ∧ bytes.length ≠ 5 ∧ e = .chunkSize bytes.length) ∨
    (∃ (bytes : List Byte) (idx : Nat), r = .call (.decodeRecord bytes idx) ∧ bytes.length ≠ 4 ∧
      e = .recordSize bytes.length)) ∧
  (∀ (s : State) (u : UnitCall) (rest : List UnitCall) (e : DecodeError), s.stopped = false → s.calls = u :: rest →
    decode (.call u) = .error e → step s = .refused (.malformed e))

/-- R60, R62, R63, R64, R66, R67, R69: words and bytes written out from the layouts decode to the instructions they
stand for; R79: a byte sequence is received as listed, under its kind. That a table word has 24 bits in whole bytes and
the index operand 0 is the model's choice (log 10), and so is UNPACK_SEQ's place beside the operations R79 spells
(log 12). -/
def Obligations.WrittenOutWordsDecode : Prop :=
  decodeTableWord 40 0x9A78563412 = some (.unpack5 0x12 0x34 0x56 0x78 0x9A) ∧
  decodeTableWord 24 0b00_00001_000001_0000111 = some (.evwData 0x02087 0) ∧
  decodeTableWord 24 0b01_001010_000000001100 = some (.evwSweepTrig 0x4A00C 0) ∧
  decodeTableWord 24 0b10_001010_000000001100 = some (.evwSweepEvt 0x8A00C 0) ∧
  decodeTableWord 24 0b110_1_0000000000001010 = some (.evwNoise 0xD000A 0) ∧
  decodeTableWord 24 0b111_10000001_100000001 = some (.evwStatus 0xF0301 0) ∧
  decodeTableWord 32 0b11_0_00000_00000101_0000000000001010 = some (.decodeRecord 0xC0 0x05 0x00 0x0A 0) ∧
  decode (.command (.subframe [0x12])) = .ok (.subframe [0x12]) ∧
  decode (.command (.records [0x12])) = .ok (.records [0x12]) ∧
  decode (.call (.unpackSeq [0x12])) = .ok (.unpackSeq [0x12])

/-- The very next step runs a unit call placed by `withFetchWord`, in the state it was placed in, and placing it changes
nothing but the calls that wait (logs 11 and 4). -/
def Obligations.PlacedRequestRunsNext : Prop :=
  ∀ (s : State) (nbits w : Nat) (u : UnitCall) (i : Instr), s.stopped = false → tableCall nbits w = some u →
    decode (.call u) = .ok i →
    s.withFetchWord nbits w = { s with calls := u :: s.calls } ∧ step (s.withFetchWord nbits w) = exec i s

/-! ### The stream sequencer -/

/-- R171, R173, R176: a sub-frame of 495 bytes, while the indices fit, appends exactly one event for each of its 198
words, in word order, each decoded under the running index; `seq` ends 198 higher; nothing else is written. -/
def Obligations.SubframeDeliversItsEvents : Prop :=
  ∀ (S : List Byte) (s : State), S.length = 495 → (∀ n ∈ s.cfg.seqWidth, s.seq + 198 ≤ 2 ^ n) →
    ∃ (W : List Nat) (evs : List Event), unpackSeq S = .ok W ∧ W.length = 198 ∧ evs.length = 198 ∧
      (∀ k < 198, ∃ (w : Nat) (ev : Event), W[k]? = some w ∧ evs[k]? = some ev ∧
        decodeWord w (s.seq + k) = .ok ev ∧ ev.idx = s.seq + k) ∧
      exec (.subframe S) s = .next { s with seq := s.seq + 198, log := s.log ++ evs.map .ev, out := .idle }

/-- R171, R200, R201: a sub-frame of another length appends one SubframeLength report and does nothing else: `seq` is
unchanged. -/
def Obligations.WrongSubframeLengthIsSkipped : Prop :=
  ∀ (S : List Byte) (s : State), S.length ≠ 495 →
    exec (.subframe S) s = .next { s with
      log := s.log ++ [.err { code := 4, name := .subframeLength, info := S.length, cmd := s.cmd, seq := s.seq }]
      out := .idle }

/-- R172, R173, R176: a buffer of whole records, while the indices fit, appends exactly one event per record, in record
order, each decoded under the running index; `seq` ends that many higher; nothing else is written. -/
def Obligations.RecordsDeliverTheirEvents : Prop :=
  ∀ (B : List Byte) (s : State), B.length % 4 = 0 → (∀ n ∈ s.cfg.seqWidth, s.seq + B.length / 4 ≤ 2 ^ n) →
    ∃ evs : List Event, evs.length = B.length / 4 ∧
      (∀ j < B.length / 4, ∃ r0 r1 r2 r3 : Byte, memRead B (4 * j) 4 = some [r0, r1, r2, r3] ∧
        evs[j]? = some (decodeRecord r0 r1 r2 r3 (s.seq + j))) ∧
      exec (.records B) s =
        .next { s with seq := s.seq + B.length / 4, log := s.log ++ evs.map .ev, out := .idle }

/-- R172, R200, R201: a buffer of another length appends one RecordLength report and does nothing else: `seq` is
unchanged. -/
def Obligations.WrongRecordLengthIsSkipped : Prop :=
  ∀ (B : List Byte) (s : State), B.length % 4 ≠ 0 →
    exec (.records B) s = .next { s with
      log := s.log ++ [.err { code := 5, name := .recordLength, info := B.length, cmd := s.cmd, seq := s.seq }]
      out := .idle }

/-- R175 in SUBFRAME: when the index runs out, the events that still fit stay in the log, one SeqOverflow report with
the index follows, and the command stops there; the index never wraps. -/
def Obligations.SubframeStopsAtSeqOverflow : Prop :=
  ∀ (S : List Byte) (s : State) (n : Nat), S.length = 495 → s.cfg.seqWidth = some n → 2 ^ n < s.seq + 198 →
    ∃ (W : List Nat) (evs : List Event), unpackSeq S = .ok W ∧ evs.length = 2 ^ n - s.seq ∧
      (∀ k < evs.length, ∃ (w : Nat) (ev : Event), W[k]? = some w ∧ evs[k]? = some ev ∧
        decodeWord w (s.seq + k) = .ok ev) ∧
      exec (.subframe S) s = .next { s with
        seq := s.seq + evs.length
        log := s.log ++ evs.map .ev ++ [.err {
          code := 6, name := .seqOverflow, info := s.seq + evs.length, cmd := s.cmd, seq := s.seq + evs.length }]
        out := .idle }

/-- R175 in RECORDS, as for SUBFRAME. -/
def Obligations.RecordsStopAtSeqOverflow : Prop :=
  ∀ (B : List Byte) (s : State) (n : Nat), B.length % 4 = 0 → s.cfg.seqWidth = some n →
    2 ^ n < s.seq + B.length / 4 → B ≠ [] →
    ∃ evs : List Event, evs.length = 2 ^ n - s.seq ∧
      (∀ j < evs.length, ∃ r0 r1 r2 r3 : Byte, memRead B (4 * j) 4 = some [r0, r1, r2, r3] ∧
        evs[j]? = some (decodeRecord r0 r1 r2 r3 (s.seq + j))) ∧
      exec (.records B) s = .next { s with
        seq := s.seq + evs.length
        log := s.log ++ evs.map .ev ++ [.err {
          code := 6, name := .seqOverflow, info := s.seq + evs.length, cmd := s.cmd, seq := s.seq + evs.length }]
        out := .idle }

/-- R174, R202: in SUBFRAME's loop a word of 2^20 or more is skipped with one report, emits no event, and consumes an
index exactly when SKIP_CONSUMES_INDEX says so. (No sub-frame holds such a word: R121.) -/
def Obligations.SkippedEventIndex : Prop :=
  ∀ (w : Nat) (s : State), 2 ^ 20 ≤ w →
    wordUnit w s = .more { s with
      seq := if s.cfg.skipConsumesIndex then s.seq + 1 else s.seq
      log := s.log ++ [.err { code := 1, name := .unreachableCode, info := w, cmd := s.cmd, seq := s.seq }] }

/-- R173: the events any instruction adds to the log carry consecutive indices from `seq` as it stood, and `seq` then
stands that many higher. -/
def Obligations.EmittedIndicesAreConsecutive : Prop :=
  ∀ (i : Instr) (s t : State), exec i s = .next t → ∃ evs : List Event,
    eventsOf t.log = eventsOf s.log ++ evs ∧ evs.map Event.idx = List.range' s.seq evs.length ∧
    t.seq = s.seq + evs.length

/-- R22: no operation removes or rewrites an entry: the log before is a prefix of the log after, for every instruction
and for every step. -/
def Obligations.LogIsAppendOnly : Prop :=
  (∀ (i : Instr) (s t : State), exec i s = .next t → s.log <+: t.log) ∧
  (∀ s t : State, step s = .next t → s.log <+: t.log)

/-- R204, R205: an instruction appends at most one report, and no entry after it. -/
def Obligations.ErrorIsSingleAndLast : Prop :=
  ∀ (i : Instr) (s t : State), exec i s = .next t → ∃ (evs : List Event) (errs : List ErrorReport),
    t.log = s.log ++ evs.map .ev ++ errs.map .err ∧ errs.length ≤ 1

/-- R201: the report an instruction appends carries the code of its name, the pointer as it stood, and the index as it
stands. -/
def Obligations.ReportsTellWhereTheyWereRaised : Prop :=
  ∀ (i : Instr) (s t : State), exec i s = .next t → ∀ r ∈ reportsOf (t.log.drop s.log.length),
    r.code = r.name.code ∧ r.cmd = s.cmd ∧ r.seq = t.seq

/-- R177 for one command: what a command appends starting at any index is what it appends starting at index 0,
renumbered; with an unbounded index. -/
def Obligations.CommandIsRenumberable : Prop :=
  ∀ (c : HostCommand) (i : Instr) (s t : State) (P : List Entry), decode (.command c) = .ok i → meetsDuty c = true →
    s.cfg.seqWidth = none → s.seq = 0 → exec i s = .next t → t.log = s.log ++ P → ∀ n : Nat,
    exec i { s with seq := n } = .next { t with
      seq := n + P.length
      log := s.log ++ (renumber n (eventsOf P)).map .ev }

/-- R177, R176: running a program of dutiful host commands in order gives exactly the log of decoding each command
alone, merging in command order and renumbering from SEQ_START. -/
def Obligations.SequentialRunIsTheMergedDecode : Prop :=
  ∀ (cfg : Config) (P : List HostCommand), cfg.seqWidth = none → P.all meetsDuty = true →
    ∃ t : State, core.run P.length ((State.resetWith cfg).load P) = .next t ∧ t.clean = true ∧
      t.log = (renumber cfg.seqStart (P.flatMap eventsAlone)).map .ev

/-! ### Invariants and frames -/

/-- R173, R175, R71, R201: every step keeps the invariant of the sequencer's state. -/
def Obligations.StepKeepsConsistent : Prop :=
  ∀ s t : State, s.Consistent → step s = .next t → t.Consistent

/-- R230: the state after reset meets the invariant, under all parameters and with any program loaded. -/
def Obligations.ResetIsConsistent : Prop :=
  ∀ (cfg : Config) (P : List HostCommand), ((State.resetWith cfg).load P).Consistent

/-- R26, R40, R207: no instruction and no step changes a parameter or the program. Of the unit calls that wait, an
instruction changes none, and a step consumes the first, if there is one (log 4). -/
def Obligations.ParametersAndProgramAreConstant : Prop :=
  (∀ (i : Instr) (s t : State), exec i s = .next t → t.cfg = s.cfg ∧ t.program = s.program ∧ t.calls = s.calls) ∧
  (∀ s t : State, step s = .next t → t.cfg = s.cfg ∧ t.program = s.program ∧ t.calls = s.calls.tail)

/-- R24, R27: no operation reads a field written by an earlier operation. -/
def Obligations.OutputFieldsAreNeverRead : Prop :=
  (∀ (i : Instr) (s : State) (o : Output), exec i { s with out := o } = exec i s) ∧
  (∀ (s : State) (o : Output), step { s with out := o } = step s)

/-- R129, R153, R202: the frame of the unit operations UNPACK5, UNPACK_SEQ, the five EVW rows and DECODE_RECORD: they
write no register, and the log only by the one report of an error they raise. -/
def Obligations.UnitOperationsWriteNoState : Prop :=
  ∀ (i : Instr) (s t : State), isHostCommand (encode i) = false → exec i s = .next t →
    t = { s with out := t.out } ∨
    ∃ e : Raised, t = { s with
      log := s.log ++ [.err { code := e.name.code, name := e.name, info := e.info, cmd := s.cmd, seq := s.seq }]
      out := .error e }

/-- R129, R153, R25: the result of a unit operation depends on its operands only. -/
def Obligations.UnitResultsDependOnOperandsOnly : Prop :=
  ∀ (i : Instr) (s s' t t' : State), isHostCommand (encode i) = false → exec i s = .next t → exec i s' = .next t' →
    t.out = t'.out

/-- R171, R172, R202: the frame of SUBFRAME and RECORDS: `cmd`, the parameters, the program and the unit calls that wait
are unchanged, `seq` never falls, and the log only grows. The output fields hold nothing after them (log 3). -/
def Obligations.HostCommandsFrame : Prop :=
  ∀ (i : Instr) (s t : State), isHostCommand (encode i) = true → exec i s = .next t →
    t = { s with seq := t.seq, log := t.log, out := .idle } ∧ s.seq ≤ t.seq ∧ s.log <+: t.log

/-- R170, R200: `exec` answers a next state for every instruction in every state: no instruction of the table faults or
is refused, whatever its operands. -/
def Obligations.EveryInstructionAnswersANextState : Prop :=
  ∀ (i : Instr) (s : State), ∃ t : State, exec i s = .next t

/-! ### The printed form and the notation -/

/-- R76, R77: an event line is the six fields in order, in decimal, separated by single spaces, `-1` for an absent
field, and one newline. -/
def Obligations.EventLineShowsTheFields : Prop :=
  ∀ e : Event, eventLine e =
    Nat.toDigits 10 e.idx ++ [' '] ++ Nat.toDigits 10 e.code ++ [' '] ++
    (e.add.elim ['-', '1'] (Nat.toDigits 10)) ++ [' '] ++ (e.detId.elim ['-', '1'] (Nat.toDigits 10)) ++ [' '] ++
    (e.timestamp.elim ['-', '1'] (Nat.toDigits 10)) ++ [' '] ++ Nat.toDigits 10 e.data ++ ['\n']

/-- R76, R77, R11: an event line tells the whole event: reading it back gives the event, absent fields included. -/
def Obligations.EventLineReadsBack : Prop :=
  ∀ e : Event, ∃ body : List Char, eventLine e = body ++ ['\n'] ∧ '\n' ∉ body ∧ readEventLine body = some e

/-- R77: a line of the raw-binary variant never contains `-1`: it holds no minus sign at all. -/
def Obligations.RecordLinesHaveNoSentinel : Prop :=
  ∀ (r0 r1 r2 r3 : Byte) (idx : Nat), '-' ∉ eventLine (decodeRecord r0 r1 r2 r3 idx)

/-- R78, R233: the printed event list is the header line and then the events' lines, in log order. That a report has
no line is the model's choice (log 13). -/
def Obligations.PrintedLogIsHeaderAndLines : Prop :=
  ∀ log : List Entry, printLog log =
    "# frame / EVCODE / ADD / DET_ID / TIME_STAMP / DATA".toList ++ ['\n'] ++ (eventsOf log).flatMap eventLine

/-- R79: writing a request in the notation and reading it gives the request back; what the notation leaves open is the
model's choice (log 12). -/
def Obligations.SpellingReadsBack : Prop :=
  ∀ r : Request, readRequest (spell r) = some r
end

