-- ==== Sys2Proof/Laws/Groups.lean ====
section
/-!
SUPPORT. The grouping of a byte sequence into chunks and records: how many there are, and where in the sequence each
stands (20_memory.md R43, R44).
-/

namespace Sys2Proof.Machine

@[simp] theorem chunksOf_nil : chunksOf [] = [] := rfl

@[simp] theorem chunksOf_cons (b0 b1 b2 b3 b4 : Byte) (rest : List Byte) :
    chunksOf (b0 :: b1 :: b2 :: b3 :: b4 :: rest) = ⟨b0, b1, b2, b3, b4⟩ :: chunksOf rest := rfl

@[simp] theorem recordsOf_nil : recordsOf [] = [] := rfl

@[simp] theorem recordsOf_cons (r0 r1 r2 r3 : Byte) (rest : List Byte) :
    recordsOf (r0 :: r1 :: r2 :: r3 :: rest) = ⟨r0, r1, r2, r3⟩ :: recordsOf rest := rfl

/-- One chunk for every five bytes. -/
theorem chunksOf_length (S : List Byte) : (chunksOf S).length = S.length / 5 := by
  induction S using chunksOf.induct with
  | case1 b0 b1 b2 b3 b4 rest ih => simp [ih]; omega
  | case2 S h =>
    match S, h with
    | [], _ | [_], _ | [_, _], _ | [_, _, _], _ | [_, _, _, _], _ => simp [chunksOf]
    | b0 :: b1 :: b2 :: b3 :: b4 :: rest, h => exact absurd rfl (h b0 b1 b2 b3 b4 rest)

/-- One record for every four bytes. -/
theorem recordsOf_length (B : List Byte) : (recordsOf B).length = B.length / 4 := by
  induction B using recordsOf.induct with
  | case1 r0 r1 r2 r3 rest ih => simp [ih]; omega
  | case2 B h =>
    match B, h with
    | [], _ | [_], _ | [_, _], _ | [_, _, _], _ => simp [recordsOf]
    | r0 :: r1 :: r2 :: r3 :: rest, h => exact absurd rfl (h r0 r1 r2 r3 rest)

/-- A read after the first five bytes is a read of the rest. -/
theorem memRead_shift (front rest : List Byte) (a n : Nat) :
    memRead (front ++ rest) (front.length + a) n = memRead rest a n := by
  simp only [memRead, List.length_append, List.drop_append, Nat.add_assoc]
  have h : front.drop (front.length + a) = [] := by simp
  simp [h]

/-- Chunk `k` holds the five bytes from offset `5k` (20_memory.md R43). -/
theorem chunksOf_getElem? (S : List Byte) (k : Nat) (hk : k < S.length / 5) :
    ∃ c : Chunk40, (chunksOf S)[k]? = some c ∧ memRead S (5 * k) 5 = some [c.b0, c.b1, c.b2, c.b3, c.b4] := by
  induction S using chunksOf.induct generalizing k with
  | case1 b0 b1 b2 b3 b4 rest ih =>
    cases k with
    | zero => exact ⟨⟨b0, b1, b2, b3, b4⟩, rfl, by simp [memRead]⟩
    | succ k =>
      obtain ⟨c, hc, hm⟩ := ih k (by simp at hk; omega)
      refine ⟨c, by simpa using hc, ?_⟩
      have := memRead_shift [b0, b1, b2, b3, b4] rest (5 * k) 5
      rw [← hm, ← this]
      congr 1
      simp
      omega
  | case2 S h =>
    match S, h with
    | [], _ | [_], _ | [_, _], _ | [_, _, _], _ | [_, _, _, _], _ => simp at hk
    | b0 :: b1 :: b2 :: b3 :: b4 :: rest, h => exact absurd rfl (h b0 b1 b2 b3 b4 rest)

/-- Record `j` holds the four bytes from offset `4j` (20_memory.md R44). -/
theorem recordsOf_getElem? (B : List Byte) (j : Nat) (hj : j < B.length / 4) :
    ∃ r : Rec32, (recordsOf B)[j]? = some r ∧ memRead B (4 * j) 4 = some [r.r0, r.r1, r.r2, r.r3] := by
  induction B using recordsOf.induct generalizing j with
  | case1 r0 r1 r2 r3 rest ih =>
    cases j with
    | zero => exact ⟨⟨r0, r1, r2, r3⟩, rfl, by simp [memRead]⟩
    | succ j =>
      obtain ⟨r, hr, hm⟩ := ih j (by simp at hj; omega)
      refine ⟨r, by simpa using hr, ?_⟩
      have := memRead_shift [r0, r1, r2, r3] rest (4 * j) 4
      rw [← hm, ← this]
      congr 1
      simp
      omega
  | case2 B h =>
    match B, h with
    | [], _ | [_], _ | [_, _], _ | [_, _, _], _ => simp at hj
    | r0 :: r1 :: r2 :: r3 :: rest, h => exact absurd rfl (h r0 r1 r2 r3 rest)

/-- Two words per chunk. -/
theorem chunkWords_length (cs : List Chunk40) : (cs.flatMap chunkWords).length = 2 * cs.length := by
  induction cs with
  | nil => rfl
  | cons c cs ih => simp [chunkWords, ih]; omega

/-- The words of chunk `k` stand at `2k` and `2k + 1` (40_bit_unpacker.md R102). -/
theorem chunkWords_getElem? (cs : List Chunk40) (k : Nat) (c : Chunk40) (h : cs[k]? = some c) :
    (cs.flatMap chunkWords)[2 * k]? = some (event1 c.b0 c.b1 c.b2) ∧
    (cs.flatMap chunkWords)[2 * k + 1]? = some (event2 c.b2 c.b3 c.b4) := by
  induction cs generalizing k with
  | nil => simp at h
  | cons d cs ih =>
    cases k with
    | zero => simp at h; subst h; simp [chunkWords]
    | succ k =>
      have := ih k (by simpa using h)
      simpa [chunkWords, Nat.mul_add] using this

/-! ### UNPACK_SEQ -/

/-- A sequence of whole chunks unpacks to the words of its chunks. -/
theorem unpackSeq_whole {S : List Byte} (h : S.length % 5 = 0) :
    unpackSeq S = .ok ((chunksOf S).flatMap chunkWords) := if_neg (not_not_intro h)

/-- Any other sequence raises ChunkLength. -/
theorem unpackSeq_partial {S : List Byte} (h : S.length % 5 ≠ 0) :
    unpackSeq S = .error ⟨.chunkLength, S.length⟩ := if_pos h

end Sys2Proof.Machine
end

