-- ==== Sys2Proof/Laws/State.lean ====
section
/-!
SUPPORT. One lemma per field per update of the state, each true by definition, so that no later proof unfolds a record
update.
-/

namespace Sys2Proof.Machine

@[simp] theorem State.setSeq_cfg (s : State) (v : Nat) : (s.setSeq v).cfg = s.cfg := rfl
@[simp] theorem State.setSeq_program (s : State) (v : Nat) : (s.setSeq v).program = s.program := rfl
@[simp] theorem State.setSeq_calls (s : State) (v : Nat) : (s.setSeq v).calls = s.calls := rfl
@[simp] theorem State.setSeq_seq (s : State) (v : Nat) : (s.setSeq v).seq = v := rfl
@[simp] theorem State.setSeq_log (s : State) (v : Nat) : (s.setSeq v).log = s.log := rfl
@[simp] theorem State.setSeq_cmd (s : State) (v : Nat) : (s.setSeq v).cmd = s.cmd := rfl
@[simp] theorem State.setSeq_out (s : State) (v : Nat) : (s.setSeq v).out = s.out := rfl

@[simp] theorem State.setCmd_cfg (s : State) (v : Nat) : (s.setCmd v).cfg = s.cfg := rfl
@[simp] theorem State.setCmd_program (s : State) (v : Nat) : (s.setCmd v).program = s.program := rfl
@[simp] theorem State.setCmd_calls (s : State) (v : Nat) : (s.setCmd v).calls = s.calls := rfl
@[simp] theorem State.setCmd_seq (s : State) (v : Nat) : (s.setCmd v).seq = s.seq := rfl
@[simp] theorem State.setCmd_log (s : State) (v : Nat) : (s.setCmd v).log = s.log := rfl
@[simp] theorem State.setCmd_cmd (s : State) (v : Nat) : (s.setCmd v).cmd = v := rfl
@[simp] theorem State.setCmd_out (s : State) (v : Nat) : (s.setCmd v).out = s.out := rfl

@[simp] theorem State.setCalls_cfg (s : State) (us : List UnitCall) : (s.setCalls us).cfg = s.cfg := rfl
@[simp] theorem State.setCalls_program (s : State) (us : List UnitCall) : (s.setCalls us).program = s.program := rfl
@[simp] theorem State.setCalls_calls (s : State) (us : List UnitCall) : (s.setCalls us).calls = us := rfl
@[simp] theorem State.setCalls_seq (s : State) (us : List UnitCall) : (s.setCalls us).seq = s.seq := rfl
@[simp] theorem State.setCalls_log (s : State) (us : List UnitCall) : (s.setCalls us).log = s.log := rfl
@[simp] theorem State.setCalls_cmd (s : State) (us : List UnitCall) : (s.setCalls us).cmd = s.cmd := rfl
@[simp] theorem State.setCalls_out (s : State) (us : List UnitCall) : (s.setCalls us).out = s.out := rfl

@[simp] theorem State.setOut_cfg (s : State) (o : Output) : (s.setOut o).cfg = s.cfg := rfl
@[simp] theorem State.setOut_program (s : State) (o : Output) : (s.setOut o).program = s.program := rfl
@[simp] theorem State.setOut_calls (s : State) (o : Output) : (s.setOut o).calls = s.calls := rfl
@[simp] theorem State.setOut_seq (s : State) (o : Output) : (s.setOut o).seq = s.seq := rfl
@[simp] theorem State.setOut_log (s : State) (o : Output) : (s.setOut o).log = s.log := rfl
@[simp] theorem State.setOut_cmd (s : State) (o : Output) : (s.setOut o).cmd = s.cmd := rfl
@[simp] theorem State.setOut_out (s : State) (o : Output) : (s.setOut o).out = o := rfl

@[simp] theorem State.append_cfg (s : State) (e : Entry) : (s.append e).cfg = s.cfg := rfl
@[simp] theorem State.append_program (s : State) (e : Entry) : (s.append e).program = s.program := rfl
@[simp] theorem State.append_calls (s : State) (e : Entry) : (s.append e).calls = s.calls := rfl
@[simp] theorem State.append_seq (s : State) (e : Entry) : (s.append e).seq = s.seq := rfl
@[simp] theorem State.append_log (s : State) (e : Entry) : (s.append e).log = s.log ++ [e] := rfl
@[simp] theorem State.append_cmd (s : State) (e : Entry) : (s.append e).cmd = s.cmd := rfl
@[simp] theorem State.append_out (s : State) (e : Entry) : (s.append e).out = s.out := rfl

@[simp] theorem State.emit_cfg (s : State) (ev : Event) : (s.emit ev).cfg = s.cfg := rfl
@[simp] theorem State.emit_program (s : State) (ev : Event) : (s.emit ev).program = s.program := rfl
@[simp] theorem State.emit_calls (s : State) (ev : Event) : (s.emit ev).calls = s.calls := rfl
@[simp] theorem State.emit_seq (s : State) (ev : Event) : (s.emit ev).seq = s.seq := rfl
@[simp] theorem State.emit_log (s : State) (ev : Event) : (s.emit ev).log = s.log ++ [.ev ev] := rfl
@[simp] theorem State.emit_cmd (s : State) (ev : Event) : (s.emit ev).cmd = s.cmd := rfl
@[simp] theorem State.emit_out (s : State) (ev : Event) : (s.emit ev).out = s.out := rfl

@[simp] theorem State.raise_cfg (s : State) (e : Raised) : (s.raise e).cfg = s.cfg := rfl
@[simp] theorem State.raise_program (s : State) (e : Raised) : (s.raise e).program = s.program := rfl
@[simp] theorem State.raise_calls (s : State) (e : Raised) : (s.raise e).calls = s.calls := rfl
@[simp] theorem State.raise_seq (s : State) (e : Raised) : (s.raise e).seq = s.seq := rfl
@[simp] theorem State.raise_log (s : State) (e : Raised) : (s.raise e).log = s.log ++ [.err (s.report e)] := rfl
@[simp] theorem State.raise_cmd (s : State) (e : Raised) : (s.raise e).cmd = s.cmd := rfl
@[simp] theorem State.raise_out (s : State) (e : Raised) : (s.raise e).out = s.out := rfl

@[simp] theorem State.load_cfg (s : State) (P : List HostCommand) : (s.load P).cfg = s.cfg := rfl
@[simp] theorem State.load_program (s : State) (P : List HostCommand) : (s.load P).program = P := rfl
@[simp] theorem State.load_calls (s : State) (P : List HostCommand) : (s.load P).calls = s.calls := rfl
@[simp] theorem State.load_seq (s : State) (P : List HostCommand) : (s.load P).seq = s.seq := rfl
@[simp] theorem State.load_log (s : State) (P : List HostCommand) : (s.load P).log = s.log := rfl
@[simp] theorem State.load_cmd (s : State) (P : List HostCommand) : (s.load P).cmd = s.cmd := rfl
@[simp] theorem State.load_out (s : State) (P : List HostCommand) : (s.load P).out = s.out := rfl

@[simp] theorem State.placeCall_cfg (s : State) (u : UnitCall) : (s.placeCall u).cfg = s.cfg := rfl
@[simp] theorem State.placeCall_program (s : State) (u : UnitCall) : (s.placeCall u).program = s.program := rfl
@[simp] theorem State.placeCall_calls (s : State) (u : UnitCall) : (s.placeCall u).calls = u :: s.calls := rfl
@[simp] theorem State.placeCall_seq (s : State) (u : UnitCall) : (s.placeCall u).seq = s.seq := rfl
@[simp] theorem State.placeCall_log (s : State) (u : UnitCall) : (s.placeCall u).log = s.log := rfl
@[simp] theorem State.placeCall_cmd (s : State) (u : UnitCall) : (s.placeCall u).cmd = s.cmd := rfl
@[simp] theorem State.placeCall_out (s : State) (u : UnitCall) : (s.placeCall u).out = s.out := rfl

@[simp] theorem State.resetWith_cfg (cfg : Config) : (State.resetWith cfg).cfg = cfg := rfl
@[simp] theorem State.resetWith_program (cfg : Config) : (State.resetWith cfg).program = [] := rfl
@[simp] theorem State.resetWith_calls (cfg : Config) : (State.resetWith cfg).calls = [] := rfl
@[simp] theorem State.resetWith_seq (cfg : Config) : (State.resetWith cfg).seq = cfg.seqStart := rfl
@[simp] theorem State.resetWith_log (cfg : Config) : (State.resetWith cfg).log = [] := rfl
@[simp] theorem State.resetWith_cmd (cfg : Config) : (State.resetWith cfg).cmd = 0 := rfl
@[simp] theorem State.resetWith_out (cfg : Config) : (State.resetWith cfg).out = .idle := rfl

end Sys2Proof.Machine
end

