-- ==== Sys2Proof/Laws/Ops.lean ====
section
/-!
SUPPORT. One lemma per shared operation that says everything it can do, for the provers to cite instead of unfolding it.
-/

namespace Sys2Proof.Machine

/-! ### Stopping -/

@[simp] theorem State.stopped_setSeq (s : State) (v : Nat) : (s.setSeq v).stopped = s.stopped := rfl
@[simp] theorem State.stopped_setCmd (s : State) (v : Nat) : (s.setCmd v).stopped = s.stopped := rfl
@[simp] theorem State.stopped_setCalls (s : State) (us : List UnitCall) : (s.setCalls us).stopped = s.stopped := rfl
@[simp] theorem State.stopped_placeCall (s : State) (u : UnitCall) : (s.placeCall u).stopped = s.stopped := rfl
@[simp] theorem State.stopped_setOut (s : State) (o : Output) : (s.setOut o).stopped = s.stopped := rfl
@[simp] theorem State.stopped_load (s : State) (P : List HostCommand) : (s.load P).stopped = s.stopped := rfl

@[simp] theorem State.stopped_append (s : State) (e : Entry) : (s.append e).stopped = (s.stopped || e.isOverflow) := by
  simp [State.stopped, State.append]

@[simp] theorem State.stopped_emit (s : State) (ev : Event) : (s.emit ev).stopped = s.stopped := by
  simp [State.emit, Entry.isOverflow]

@[simp] theorem State.stopped_raise (s : State) (e : Raised) :
    (s.raise e).stopped = (s.stopped || e.name == .seqOverflow) := by
  simp [State.raise, Entry.isOverflow, State.report]

/-! ### Delivering and skipping an event -/

/-- The index fits when the width is unbounded, or the index is below its bound. -/
theorem State.indexFits_iff (s : State) : s.indexFits = true ↔ ∀ n ∈ s.cfg.seqWidth, s.seq < 2 ^ n := by
  unfold State.indexFits
  split <;> simp_all

/-- Delivering an event either emits it under the index and moves the index by one, or raises SeqOverflow and stops
the command. -/
theorem State.deliver_cases (s : State) (ev : Event) :
    (s.indexFits = true ∧ s.deliver ev = .more ((s.emit ev).setSeq (s.seq + 1))) ∨
    (s.indexFits = false ∧ s.deliver ev = .halt (s.raise ⟨.seqOverflow, s.seq⟩)) := by
  unfold State.deliver
  cases h : s.indexFits <;> simp

/-! ### The loop over the units of a command -/

@[simp] theorem forEach_nil {α : Type} (unit : α → State → Progress) (s : State) : forEach unit [] s = s := rfl

theorem forEach_more {α : Type} {unit : α → State → Progress} {a : α} {rest : List α} {s t : State}
    (h : unit a s = .more t) : forEach unit (a :: rest) s = forEach unit rest t := by
  simp [forEach, h]

theorem forEach_halt {α : Type} {unit : α → State → Progress} {a : α} {rest : List α} {s t : State}
    (h : unit a s = .halt t) : forEach unit (a :: rest) s = t := by
  simp [forEach, h]

/-- What every unit keeps, from the states it is kept in, the whole loop keeps. -/
theorem forEach_keeps {α : Type} {unit : α → State → Progress} {P : State → Prop} {as : List α}
    (hmore : ∀ a ∈ as, ∀ s t, P s → unit a s = .more t → P t)
    (hhalt : ∀ a ∈ as, ∀ s t, P s → unit a s = .halt t → P t) {s : State} (hs : P s) :
    P (forEach unit as s) := by
  induction as generalizing s with
  | nil => exact hs
  | cons a rest ih =>
    cases h : unit a s with
    | more t =>
      rw [forEach_more h]
      exact ih (fun b hb => hmore b (by simp [hb])) (fun b hb => hhalt b (by simp [hb])) (hmore a (by simp) s t hs h)
    | halt t =>
      rw [forEach_halt h]
      exact hhalt a (by simp) s t hs h

/-! ### Completing a unit operation -/

@[simp] theorem State.complete_ok {α : Type} (s : State) (a : α) (field : α → Output) :
    s.complete (.ok a) field = .next (s.setOut (field a)) := rfl

@[simp] theorem State.complete_error {α : Type} (s : State) (e : Raised) (field : α → Output) :
    s.complete (.error e) field = .next ((s.raise e).setOut (.error e)) := rfl

/-! ### The step -/

/-- The first unit call that waits is next, and is consumed. -/
@[simp] theorem State.nextRequest_call {s : State} {u : UnitCall} {rest : List UnitCall} (h : s.calls = u :: rest) :
    s.nextRequest = some (.call u, s.setCalls rest) := by
  simp [State.nextRequest, h]

/-- With no call that waits, the command at `cmd` is next, if there is one. -/
@[simp] theorem State.nextRequest_command {s : State} (h : s.calls = []) :
    s.nextRequest = s.program[s.cmd]?.map fun c => (.command c, s) := by
  simp [State.nextRequest, h, State.fetch]

@[simp] theorem finish_command_next (c : HostCommand) (t : State) :
    finish (.command c) (.next t) = .next t.advance := rfl

@[simp] theorem finish_fault (r : Request) (f : Fault) : finish r (.fault f) = .fault f := by cases r <;> rfl

@[simp] theorem finish_refused (r : Request) (e : Refusal) : finish r (.refused e) = .refused e := by cases r <;> rfl

@[simp] theorem finish_call (u : UnitCall) (o : Host.Outcome State Fault Refusal) : finish (.call u) o = o := rfl

/-- Everything a step that answers a next state can be: the sequencer is not stopped, and either a unit call was next,
is consumed, and its execution is the step, or no call waits, the command at `cmd` is executed and the pointer moves
after it. -/
theorem step_cases {s t : State} (h : step s = .next t) : s.stopped = false ∧
    ((∃ u rest i, s.calls = u :: rest ∧ decode (.call u) = .ok i ∧ exec i (s.setCalls rest) = .next t) ∨
    (∃ c i v, s.calls = [] ∧ s.program[s.cmd]? = some c ∧ decode (.command c) = .ok i ∧ exec i s = .next v ∧
      t = v.advance)) := by
  unfold step at h
  cases hs : s.stopped with
  | true => simp [hs] at h
  | false =>
    refine ⟨rfl, ?_⟩
    simp only [hs, Bool.false_eq_true, if_false] at h
    cases hc : s.calls with
    | cons u rest =>
      rw [State.nextRequest_call hc] at h
      cases hi : decode (.call u) with
      | error e => simp [hi] at h
      | ok i => exact .inl ⟨u, rest, i, rfl, hi, by simpa [hi] using h⟩
    | nil =>
      rw [State.nextRequest_command hc] at h
      cases hr : s.program[s.cmd]? with
      | none => simp [hr] at h
      | some c =>
        cases hi : decode (.command c) with
        | error e => simp [hr, hi] at h
        | ok i =>
          simp only [hr, hi, Option.map_some] at h
          cases hv : exec i s with
          | next v => exact .inr ⟨c, i, v, rfl, rfl, hi, hv, by simpa [hv] using h.symm⟩
          | fault f => simp [hv, finish] at h
          | refused e => simp [hv, finish] at h

/-- The pointer stays after a SeqOverflow and moves by one otherwise. -/
theorem State.advance_cases (s : State) :
    (s.stopped = true ∧ s.advance = s) ∨ (s.stopped = false ∧ s.advance = s.setCmd (s.cmd + 1)) := by
  unfold State.advance
  cases s.stopped <;> simp

/-! ### Runs of several steps -/

theorem core_run_zero (s : State) : core.run 0 s = .next s := rfl

/-- A run goes on from what its first step answers. -/
theorem core_run_succ {s t : State} (k : Nat) (h : step s = .next t) : core.run (k + 1) s = core.run k t := by
  have h' : core.step s = .next t := h
  simp only [Host.Core.run]
  rw [h']

end Sys2Proof.Machine
end

