-- ==== Sys2Proof/Laws/PerInstr.lean ====
section
/-!
SUPPORT. The family RoundTrip, one lemma per constructor of Instr: decoding what the encoder writes for a well-formed
instruction gives the instruction.
-/

namespace Sys2Proof.Laws.RoundTrip

/-- Decoding the encoding of a well-formed instruction gives it back. -/
def Statement (i : Instr) : Prop := i.wellFormed = true → decode (encode i) = .ok i

/-- The bits that the wide mask keeps determine those the narrow one keeps. -/
theorem land_narrow {w p : Nat} (h : w &&& 0xE0000 = p) : w &&& 0xC0000 = p &&& 0xC0000 := by
  subst h
  rw [Nat.and_assoc]
  rfl

theorem unpack5 (b0 b1 b2 b3 b4 : Byte) : Statement (.unpack5 b0 b1 b2 b3 b4) := fun _ => rfl

theorem unpackSeq (bytes : List Byte) : Statement (.unpackSeq bytes) := fun _ => rfl

theorem evwData (w idx : Nat) : Statement (.evwData w idx) := by
  intro h
  simp only [Instr.wellFormed, beq_iff_eq] at h
  simp [encode, decode, selectVariant, variantTable, VariantRow.selects, Variant.instr, h]

theorem evwSweepTrig (w idx : Nat) : Statement (.evwSweepTrig w idx) := by
  intro h
  simp only [Instr.wellFormed, beq_iff_eq] at h
  simp [encode, decode, selectVariant, variantTable, VariantRow.selects, Variant.instr, h]

theorem evwSweepEvt (w idx : Nat) : Statement (.evwSweepEvt w idx) := by
  intro h
  simp only [Instr.wellFormed, beq_iff_eq] at h
  simp [encode, decode, selectVariant, variantTable, VariantRow.selects, Variant.instr, h]

theorem evwNoise (w idx : Nat) : Statement (.evwNoise w idx) := by
  intro h
  simp only [Instr.wellFormed, beq_iff_eq] at h
  simp [encode, decode, selectVariant, variantTable, VariantRow.selects, Variant.instr, h, land_narrow h]

theorem evwStatus (w idx : Nat) : Statement (.evwStatus w idx) := by
  intro h
  simp only [Instr.wellFormed, beq_iff_eq] at h
  simp [encode, decode, selectVariant, variantTable, VariantRow.selects, Variant.instr, h, land_narrow h]

theorem decodeRecord (r0 r1 r2 r3 : Byte) (idx : Nat) : Statement (.decodeRecord r0 r1 r2 r3 idx) := fun _ => rfl

theorem subframe (bytes : List Byte) : Statement (.subframe bytes) := fun _ => rfl

theorem records (bytes : List Byte) : Statement (.records bytes) := fun _ => rfl

end Sys2Proof.Laws.RoundTrip
end

