-- ==== Sys2Proof/Tests/Slice0.lean ====
section
/-!
SUPPORT. Tests. Expected results are the spec's own vectors (95_test_vectors.md) or values written out by hand from its
layouts; each comment names the source. The second half holds, for every statement with hypotheses, a concrete input
that meets them.
-/

namespace Sys2Proof.Tests

open Sys2Proof.Machine

/-! ### Well-formedness: each check admits a good term and refuses an ill-formed one -/

theorem test_wellFormed_admits :
    (Instr.evwData 0x3FFFF 0).wellFormed = true ∧ (Instr.evwSweepTrig 0x40000 0).wellFormed = true ∧
    (Instr.evwSweepEvt 0xBFFFF 0).wellFormed = true ∧ (Instr.evwNoise 0xDFFFF 0).wellFormed = true ∧
    (Instr.evwStatus 0xE0000 0).wellFormed = true := by decide

/-- A word one bit away from the row's pattern is refused by that row. -/
theorem test_wellFormed_refuses :
    (Instr.evwData 0x40000 0).wellFormed = false ∧ (Instr.evwSweepTrig 0x3FFFF 0).wellFormed = false ∧
    (Instr.evwSweepEvt 0xC0000 0).wellFormed = false ∧ (Instr.evwNoise 0xE0000 0).wellFormed = false ∧
    (Instr.evwStatus 0xDFFFF 0).wellFormed = false := by decide

/-! ### Decoding words written out bit by bit -/

/-- 30_encoding.md R62, source scenario L1-1: code 00, det_id 00001, timestamp 000001, data 0000111. -/
theorem test_decode_data : decode (.call (.decodeWord 0b00_00001_000001_0000111 0)) = .ok (.evwData 0x02087 0) := by rfl

/-- 30_encoding.md R63: code 01, timestamp 001010, data 000000001100. -/
theorem test_decode_sweepTrig : decode (.call (.decodeWord 0b01_001010_000000001100 5)) = .ok (.evwSweepTrig 0x4A00C 5) := by
  rfl

/-- 30_encoding.md R64: code 10. -/
theorem test_decode_sweepEvt : decode (.call (.decodeWord 0b10_001010_000000001100 6)) = .ok (.evwSweepEvt 0x8A00C 6) := by
  rfl

/-- 30_encoding.md R66, source scenario L1-2 as corrected by 90_conflicts.md C1: top bits 110, det_id 1, data 10. -/
theorem test_decode_noise : decode (.call (.decodeWord 0b110_1_0000000000001010 1)) = .ok (.evwNoise 0xD000A 1) := by rfl

/-- 90_conflicts.md C1: the uncorrected bits 011 1 ... are a SWEEP_TRIG word. -/
theorem test_decode_uncorrected : decode (.call (.decodeWord 0b011_1_0000000000001010 0)) = .ok (.evwSweepTrig 0x7000A 0) := by
  rfl

/-- 30_encoding.md R67: top bits 111, timestamp 10000001, data 100000001. -/
theorem test_decode_status : decode (.call (.decodeWord 0b111_10000001_100000001 2)) = .ok (.evwStatus 0xF0301 2) := by rfl

/-- 30_encoding.md R60: V = 0x9A78563412 is the chunk 12 34 56 78 9A. -/
theorem test_decode_chunk : decodeTableWord 40 0x9A78563412 = some (.unpack5 0x12 0x34 0x56 0x78 0x9A) := by decide

/-- 30_encoding.md R69: R = 0xC005000A is the record C0 05 00 0A. -/
theorem test_decode_record : decodeTableWord 32 0xC005000A = some (.decodeRecord 0xC0 0x05 0x00 0x0A 0) := by decide

/-- 30_encoding.md R79: a byte sequence is received as listed, under the kind of its command or operation. -/
theorem test_decode_sequences :
    decode (.command (.subframe [0x12, 0x34])) = .ok (.subframe [0x12, 0x34]) ∧
    decode (.command (.records [0xC0, 0x05])) = .ok (.records [0xC0, 0x05]) ∧
    decode (.call (.unpackSeq [0x87])) = .ok (.unpackSeq [0x87]) := ⟨rfl, rfl, rfl⟩

/-- 30_encoding.md R74: a chunk of four bytes and a record of five are rejected by name. -/
theorem test_decode_rejects :
    decode (.call (.unpack5 [1, 2, 3, 4])) = .error (.chunkSize 4) ∧
    decode (.call (.decodeRecord [1, 2, 3, 4, 5] 0)) = .error (.recordSize 5) := ⟨rfl, rfl⟩

/-! ### The instructions, against the vectors of 95_test_vectors.md -/

/-- The state the instructions are tried in. -/
def start : State := { State.reset with seq := 7, cmd := 2 }

/-- L2-1: `01 02 03 04 05`. -/
theorem test_unpack5_order : exec (.unpack5 0x01 0x02 0x03 0x04 0x05) start =
    .next { start with out := .words 0x30201 0x05040 } := by rfl

/-- L2-1: `00 00 A5 00 00`, the nibble split of b2. -/
theorem test_unpack5_split : exec (.unpack5 0 0 0xA5 0 0) start = .next { start with out := .words 0x50000 0x0000A } := by
  rfl

/-- L2-2: ten bytes, four words in order. -/
theorem test_unpackSeq_words :
    exec (.unpackSeq [0x87, 0x20, 0xA0, 0x00, 0xD0, 0x12, 0x34, 0x56, 0x78, 0x9A]) start =
    .next { start with out := .wordSeq [0x02087, 0xD000A, 0x63412, 0x9A785] } := by rfl

/-- L2-2: seven bytes raise ChunkLength(7), no words. -/
theorem test_unpackSeq_length : exec (.unpackSeq [1, 2, 3, 4, 5, 6, 7]) start =
    .next { start with log := [.err ⟨3, .chunkLength, 7, 2, 7⟩], out := .error ⟨.chunkLength, 7⟩ } := by rfl

/-- L2-3: all DATA fields at their maximum. -/
theorem test_evwData_max : exec (.evwData 0x3FFFF 0) start =
    .next { start with out := .event ⟨0, 0, none, some 31, some 63, 127⟩ } := by rfl

/-- L2-3: DATA timestamp alone. -/
theorem test_evwData_timestamp : exec (.evwData 0x01F80 41) start =
    .next { start with out := .event ⟨41, 0, none, some 0, some 63, 0⟩ } := by rfl

/-- L2-3: 0x4A00C. -/
theorem test_evwSweepTrig : exec (.evwSweepTrig 0x4A00C 5) start =
    .next { start with out := .event ⟨5, 1, none, none, some 10, 12⟩ } := by rfl

/-- L2-3: 0xBFFFF. -/
theorem test_evwSweepEvt_max : exec (.evwSweepEvt 0xBFFFF 0) start =
    .next { start with out := .event ⟨0, 2, none, none, some 63, 4095⟩ } := by rfl

/-- L2-3: 0xD000A, the corrected source scenario. -/
theorem test_evwNoise : exec (.evwNoise 0xD000A 1) start =
    .next { start with out := .event ⟨1, 3, some 0, some 1, none, 10⟩ } := by rfl

/-- L2-3: 0xC0000, add and det_id present and zero. -/
theorem test_evwNoise_zero : exec (.evwNoise 0xC0000 0) start =
    .next { start with out := .event ⟨0, 3, some 0, some 0, none, 0⟩ } := by rfl

/-- L2-3: 0xF0301. -/
theorem test_evwStatus : exec (.evwStatus 0xF0301 2) start =
    .next { start with out := .event ⟨2, 3, some 1, none, some 129, 257⟩ } := by rfl

/-- L2-3: 0x100000 raises UnreachableCode; its low bits select the DATA row. -/
theorem test_wide_word :
    decode (.call (.decodeWord 0x100000 0)) = .ok (.evwData 0x100000 0) ∧
    exec (.evwData 0x100000 0) start = .next { start with
      log := [.err ⟨1, .unreachableCode, 0x100000, 2, 7⟩], out := .error ⟨.unreachableCode, 0x100000⟩ } := ⟨rfl, rfl⟩

/-- L2-4: `FF FF FF FF`, the bias wraps. -/
theorem test_decodeRecord_ones : exec (.decodeRecord 0xFF 0xFF 0xFF 0xFF 0) start =
    .next { start with out := .event ⟨0, 3, some 1, some 31, some 255, 32767⟩ } := by rfl

/-- L2-4: `A2 01 12 34`, big-endian data, code 2 with add reported. -/
theorem test_decodeRecord_general : exec (.decodeRecord 0xA2 0x01 0x12 0x34 0) start =
    .next { start with out := .event ⟨0, 2, some 1, some 2, some 1, 37428⟩ } := by rfl

/-- L2-5: a sub-frame of 490 bytes. -/
theorem test_subframe_length : exec (.subframe (List.replicate 490 0)) start =
    .next { start with log := [.err ⟨4, .subframeLength, 490, 2, 7⟩] } := by
  simp only [exec, execSubframe, List.length_replicate]
  rfl

/-- P5: the words of the first chunk become the first two events, under the running index. -/
theorem test_subframe_first_events :
    forEach wordUnit [0x63412, 0x9A785] State.reset = { State.reset with
      seq := 2, log := [.ev ⟨0, 1, none, none, some 35, 1042⟩, .ev ⟨1, 2, none, none, some 26, 1925⟩] } := by rfl

set_option maxRecDepth 20000 in
/-- L2-5: an all-zero sub-frame appends 198 events, the last `(197, 0, None, 0, 0, 0)`, and leaves seq 198. -/
theorem test_subframe_zero : (match exec (.subframe (List.replicate 495 0)) State.reset with
    | .next t => t.seq == 198 && t.log.length == 198 &&
      t.log.getLast? == some (.ev ⟨197, 0, none, some 0, some 0, 0⟩)
    | .fault _ => false
    | .refused _ => false) = true := by rfl

/-- L2-5: `RECORDS C0 05 00 0A` from seq 7. -/
theorem test_records : exec (.records [0xC0, 0x05, 0x00, 0x0A]) start =
    .next { start with seq := 8, log := [.ev ⟨7, 3, some 0, some 0, some 5, 32778⟩] } := by rfl

/-- L2-5: with SEQ_WIDTH = 8, two records from seq 255: one event, then SeqOverflow(256); `cmd` does not advance. -/
theorem test_records_overflow :
    step { State.reset with cfg := ⟨0, some 8, false⟩, seq := 255, program := [.records [0, 0, 0, 0, 0, 0, 0, 0]] } =
    .next { State.reset with
      cfg := ⟨0, some 8, false⟩, seq := 256, program := [.records [0, 0, 0, 0, 0, 0, 0, 0]]
      log := [.ev ⟨255, 0, some 0, some 0, some 0, 32768⟩, .err ⟨6, .seqOverflow, 256, 0, 256⟩] } := by rfl

/-- P4, first command: six bytes raise RecordLength, and the pointer still advances. -/
theorem test_step_record_length :
    step (State.reset.load [.records [1, 2, 3, 4, 5, 6]]) =
    .next { State.reset with
      program := [.records [1, 2, 3, 4, 5, 6]], cmd := 1, log := [.err ⟨5, .recordLength, 6, 0, 0⟩] } := by rfl

/-- 43_stream_sequencer.md R170: from reset, with no program, there is no step. -/
theorem test_reset_has_no_step : step State.reset = .fault .noCommand := by rfl

/-- A table row's word placed at reset is what the next step runs; `cmd` stays (10_state.md R23). -/
theorem test_withFetchWord : step (State.reset.withFetchWord 24 0xD000A) =
    .next { State.reset with out := .event ⟨0, 3, some 0, some 1, none, 10⟩ } := by rfl

/-- 20_memory.md R42: the regions sum to the packet, and the sub-frame lies at offset 7. -/
theorem test_packet_layout : (Config.packetRegions.map Prod.snd).sum = Config.packetLen ∧
    ((Config.packetRegions.take 2).map Prod.snd).sum = Config.subframeOffset := by decide

/-! ### The printed form and the notation -/

/-- L2-3: `0 0 -1 1 1 7`. -/
theorem test_event_line : eventLine ⟨0, 0, none, some 1, some 1, 7⟩ = "0 0 -1 1 1 7\n".toList := by decide

/-- L2-4: `0 3 0 0 5 32778`, read back. -/
theorem test_read_event_line :
    readEventLine "0 3 0 0 5 32778".toList = some ⟨0, 3, some 0, some 0, some 5, 32778⟩ := by decide

/-- P5, both lines, as 95_test_vectors.md spells them. -/
theorem test_read_program :
    readProgram "SUBFRAME 12 34 fill(3, 0F) FF\nRECORDS  20 00 00 01\n".toList =
    some [.subframe [0x12, 0x34, 0x0F, 0x0F, 0x0F, 0xFF], .records [0x20, 0x00, 0x00, 0x01]] := by decide

/-- 41_event_word_decoder.md R122, example. -/
theorem test_read_decodeWord : readRequest "DECODE_WORD 0x02087 41".toList = some (.call (.decodeWord 0x02087 41)) := by
  decide

/-- 30_encoding.md R79: a program is a list of host commands, so a unit operation is no line of one. -/
theorem test_program_has_no_unit_line : readProgram "UNPACK5 12 34 56 78 9A\n".toList = none := by decide


/-! ### Witnesses: for every statement with hypotheses, inputs that meet all of them -/

/-- One step short of the bound of an 8-bit index, with two records to decode (95_test_vectors.md L2-5). -/
def overflowStart : State :=
  { State.reset with cfg := ⟨0, some 8, false⟩, seq := 255, program := [.records [0, 0, 0, 0, 0, 0, 0, 0]] }

/-- The state SeqOverflow leaves (95_test_vectors.md L2-5). -/
def overflowEnd : State :=
  { overflowStart with
    seq := 256
    log := [.ev ⟨255, 0, some 0, some 0, some 0, 32768⟩, .err ⟨6, .seqOverflow, 256, 0, 256⟩] }

/-- A sub-frame of 495 zero bytes. -/
def zeroSubframe : List Byte := List.replicate 495 0

theorem zeroSubframe_length : zeroSubframe.length = 495 := List.length_replicate

/-- A program of one empty RECORDS command, at reset. -/
def emptyRecords : State := State.reset.load [.records []]

/-- That command done. -/
def emptyRecordsDone : State := { emptyRecords with cmd := 1 }

/-- A unit call that waits before that program. -/
def waitingCall : State := emptyRecords.placeCall (.unpackSeq [])

/-- That call done. -/
def waitingCallDone : State := { emptyRecords with out := .wordSeq [] }

/-- A unit call first, and a command with no call before it. -/
theorem witness_StepRunsTheDecodedCommand : emptyRecords.stopped = false ∧ (Instr.unpackSeq []).wellFormed = true ∧
    waitingCall.calls = [.unpackSeq []] ∧ decode (.call (.unpackSeq [])) = .ok (.unpackSeq []) ∧
    emptyRecords.calls = [] ∧ emptyRecords.program[emptyRecords.cmd]? = some (.records []) ∧
    decode (.command (.records [])) = .ok (.records []) ∧ (Instr.records []).wellFormed = true :=
  ⟨rfl, rfl, rfl, rfl, rfl, rfl, rfl, rfl⟩

theorem witness_NoStepAfterTheEnd : overflowEnd.stopped = true ∧
    State.reset.stopped = false ∧ State.reset.calls = [] ∧ State.reset.program.length ≤ State.reset.cmd := by decide

/-- A command that completes, a command that is skipped for an error, a unit call, and an instruction. -/
theorem witness_StepAdvancesThePointerByOne :
    (emptyRecords.calls = [] ∧ step emptyRecords = .next emptyRecordsDone ∧ emptyRecordsDone.stopped = false) ∧
    (waitingCall.calls ≠ [] ∧ step waitingCall = .next waitingCallDone) ∧
    exec (.records []) emptyRecords = .next emptyRecords := ⟨⟨rfl, rfl, rfl⟩, ⟨by decide, rfl⟩, rfl⟩

theorem witness_OverflowStopsForGood : step overflowStart = .next overflowEnd ∧ overflowEnd.stopped = true :=
  ⟨rfl, rfl⟩

/-- At the start of a program with a unit call that waits, and at a program's end. -/
theorem witness_EveryRunEnds : acceptable waitingCall.calls = true ∧ waitingCall.stopped = false ∧
    waitingCall.cmd ≤ waitingCall.program.length ∧
    emptyRecordsDone.stopped = false ∧ emptyRecordsDone.cmd = emptyRecordsDone.program.length := by decide

/-- A program that meets the host's duties, at reset. -/
def dutiful : State := State.reset.load [.subframe zeroSubframe, .records [0, 0, 0, 0]]

theorem witness_DutifulHostGetsACleanRun : dutiful.cfg.seqWidth = none ∧ dutiful.calls = [] ∧ dutiful.program.all meetsDuty = true ∧
    reportsOf dutiful.log = [] ∧ dutiful.cmd ≤ dutiful.program.length := by
  refine ⟨rfl, rfl, ?_, rfl, Nat.zero_le _⟩
  simp [dutiful, State.load, meetsDuty, zeroSubframe_length]

theorem witness_Unpack5IsABijection : (0 : Nat) < 2 ^ 20 ∧ 0xFFFFF < 2 ^ 20 := by decide

/-- Whole chunks: none and one; partial ones: on either side of a chunk. -/
theorem witness_UnpackSeqKeepsChunkOrder : ([] : List Byte).length % 5 = 0 ∧ ([1, 2, 3, 4, 5] : List Byte).length % 5 = 0 ∧
    ([1, 2, 3, 4] : List Byte).length % 5 ≠ 0 ∧ ([1, 2, 3, 4, 5, 6] : List Byte).length % 5 ≠ 0 := by decide

theorem witness_SubframeUnpacksTo198Words : zeroSubframe.length = 495 := zeroSubframe_length

/-- The least and the greatest word of the variant, and so for the next four. -/
theorem witness_DataWordGivesItsEvent : 0 < 2 ^ 20 ∧ bits 0 19 18 = 0 ∧ 0x3FFFF < 2 ^ 20 ∧ bits 0x3FFFF 19 18 = 0 := by
  decide

theorem witness_SweepTrigWordGivesItsEvent : 0x7FFFF < 2 ^ 20 ∧ bits 0x40000 19 18 = 1 ∧ bits 0x7FFFF 19 18 = 1 := by
  decide

theorem witness_SweepEvtWordGivesItsEvent : 0xBFFFF < 2 ^ 20 ∧ bits 0x80000 19 18 = 2 ∧ bits 0xBFFFF 19 18 = 2 ∧
    0x3FFFF < 2 ^ 18 := by decide

theorem witness_NoiseWordGivesItsEvent : 0xDFFFF < 2 ^ 20 ∧ bits 0xC0000 19 17 = 0b110 ∧ bits 0xDFFFF 19 17 = 0b110 := by
  decide

theorem witness_StatusWordGivesItsEvent : 0xFFFFF < 2 ^ 20 ∧ bits 0xE0000 19 17 = 0b111 ∧ bits 0xFFFFF 19 17 = 0b111 := by
  decide

theorem witness_WideWordRaisesUnreachableCode : 2 ^ 20 ≤ 0x100000 ∧ 2 ^ 20 ≤ 0xFFFFFFFF := by decide

theorem witness_AddGuardIsDead : exec (.records []) State.reset = .next State.reset ∧
    (∃ s : State, exec (.records []) s = .next s ∧ ∃ r ∈ reportsOf s.log, r.name = .unreachableAdd) :=
  ⟨rfl, { State.reset with log := [.err ⟨2, .unreachableAdd, 0, 0, 0⟩] }, rfl, _, List.mem_singleton.2 rfl, rfl⟩

theorem witness_EveryWordSelectsOneVariant : 0xFFFFF < 2 ^ 20 := by decide

theorem witness_DecodeWordIsItsVariants : 0xFFFFF < 2 ^ 20 := by decide

/-- One word for each clause. -/
theorem witness_FieldsAtTheSourceOffsets : 0xFFFFF < 2 ^ 20 ∧ bitsMsb 0x3FFFF 0 2 = 0 ∧ bitsMsb 0x7FFFF 0 2 = 1 ∧
    bitsMsb 0xBFFFF 0 2 = 2 ∧ (bitsMsb 0xDFFFF 0 2 = 3 ∧ bitsMsb 0xDFFFF 2 3 = 0) ∧
    (bitsMsb 0xFFFFF 0 2 = 3 ∧ bitsMsb 0xFFFFF 2 3 = 1) := by decide

/-- One event for each clause, each field at its bound. -/
theorem witness_EventFieldsAreInBounds :
    exec (.decodeRecord 0xFF 0xFF 0x7F 0xFF 0) State.reset =
      .next { State.reset with out := .event ⟨0, 3, some 1, some 31, some 255, 65535⟩ } ∧
    decodeWord 0x3FFFF 0 = .ok ⟨0, 0, none, some 31, some 63, 127⟩ ∧
    decodeWord 0x7FFFF 0 = .ok ⟨0, 1, none, none, some 63, 4095⟩ ∧
    decodeWord 0xBFFFF 0 = .ok ⟨0, 2, none, none, some 63, 4095⟩ ∧
    decodeWord 0xDFFFF 0 = .ok ⟨0, 3, some 0, some 1, none, 65535⟩ ∧
    decodeWord 0xFFFFF 0 = .ok ⟨0, 3, some 1, none, some 255, 511⟩ := ⟨rfl, rfl, rfl, rfl, rfl, rfl⟩

theorem witness_RecordLayoutIgnoresTheCode : (0xDF : Byte).toNat % 32 = (0x1F : Byte).toNat % 32 := by decide

theorem witness_PackedFieldsDecodeBack : 31 < 2 ^ 5 ∧ 63 < 2 ^ 6 ∧ 127 < 2 ^ 7 ∧ 4095 < 2 ^ 12 ∧ 1 < 2 ∧ 65535 < 2 ^ 16 ∧
    255 < 2 ^ 8 ∧ 511 < 2 ^ 9 ∧ 3 < 4 := by decide

theorem witness_DecodedRequestsEncodeBack : decode (.call (.decodeWord 0xFFFFF 1)) = .ok (.evwStatus 0xFFFFF 1) := rfl

/-- A chunk of no bytes, as the call that waits. -/
theorem witness_DecoderRejectsOnlyWrongSizes :
    (State.reset.placeCall (.unpack5 [])).stopped = false ∧
    (State.reset.placeCall (.unpack5 [])).calls = [.unpack5 []] ∧
    decode (.call (.unpack5 [])) = .error (.chunkSize 0) := ⟨rfl, rfl, rfl⟩

theorem witness_PlacedRequestRunsNext : State.reset.stopped = false ∧
    tableCall 24 0xD000A = some (.decodeWord 0xD000A 0) ∧
    decode (.call (.decodeWord 0xD000A 0)) = .ok (.evwNoise 0xD000A 0) := ⟨rfl, rfl, rfl⟩

/-- With an unbounded index, and with an 8-bit index where the last event just fits. -/
theorem witness_SubframeDeliversItsEvents : zeroSubframe.length = 495 ∧
    (∀ n ∈ State.reset.cfg.seqWidth, State.reset.seq + 198 ≤ 2 ^ n) ∧
    (∀ n ∈ ({ overflowStart with seq := 58 } : State).cfg.seqWidth, 58 + 198 ≤ 2 ^ n) :=
  ⟨zeroSubframe_length, by simp [State.reset, State.resetWith, Config.standard], by simp [overflowStart]⟩

theorem witness_WrongSubframeLengthIsSkipped : (List.replicate 494 (0 : Byte)).length ≠ 495 ∧
    (List.replicate 496 (0 : Byte)).length ≠ 495 := by
  rw [List.length_replicate, List.length_replicate]
  decide

/-- No record, and a last record whose index just fits. -/
theorem witness_RecordsDeliverTheirEvents : ([] : List Byte).length % 4 = 0 ∧ ([0, 0, 0, 0] : List Byte).length % 4 = 0 ∧
    (∀ n ∈ overflowStart.cfg.seqWidth, overflowStart.seq + ([0, 0, 0, 0] : List Byte).length / 4 ≤ 2 ^ n) :=
  ⟨rfl, rfl, by simp [overflowStart]⟩

theorem witness_WrongRecordLengthIsSkipped : ([0, 0, 0] : List Byte).length % 4 ≠ 0 ∧
    ([0, 0, 0, 0, 0] : List Byte).length % 4 ≠ 0 := by decide

/-- One event too many, and an index already at its bound. -/
theorem witness_SubframeStopsAtSeqOverflow : zeroSubframe.length = 495 ∧
    ({ overflowStart with seq := 59 } : State).cfg.seqWidth = some 8 ∧
    2 ^ 8 < ({ overflowStart with seq := 59 } : State).seq + 198 ∧
    overflowEnd.cfg.seqWidth = some 8 ∧ 2 ^ 8 < overflowEnd.seq + 198 :=
  ⟨zeroSubframe_length, rfl, by decide, rfl, by decide⟩

theorem witness_RecordsStopAtSeqOverflow : ([0, 0, 0, 0, 0, 0, 0, 0] : List Byte).length % 4 = 0 ∧
    overflowStart.cfg.seqWidth = some 8 ∧
    2 ^ 8 < overflowStart.seq + ([0, 0, 0, 0, 0, 0, 0, 0] : List Byte).length / 4 ∧
    ([0, 0, 0, 0, 0, 0, 0, 0] : List Byte) ≠ [] := ⟨rfl, rfl, by decide, by decide⟩

theorem witness_SkippedEventIndex : 2 ^ 20 ≤ 0x100000 := by decide

/-- A command that emits an event. -/
theorem witness_EmittedIndicesAreConsecutive : exec (.records [0xC0, 0x05, 0x00, 0x0A]) start =
    .next { start with seq := 8, log := [.ev ⟨7, 3, some 0, some 0, some 5, 32778⟩] } := rfl

/-- An instruction, and a step, that append. -/
theorem witness_LogIsAppendOnly : exec (.records [0]) start =
      .next { start with log := [.err ⟨5, .recordLength, 1, 2, 7⟩] } ∧
    step overflowStart = .next overflowEnd := ⟨rfl, rfl⟩

theorem witness_ErrorIsSingleAndLast : exec (.records [0, 0, 0, 0, 0, 0, 0, 0]) overflowStart = .next overflowEnd := rfl

theorem witness_ReportsTellWhereTheyWereRaised :
    exec (.records [0, 0, 0, 0, 0, 0, 0, 0]) overflowStart = .next overflowEnd ∧
    (⟨6, .seqOverflow, 256, 0, 256⟩ : ErrorReport) ∈ reportsOf (overflowEnd.log.drop overflowStart.log.length) :=
  ⟨rfl, List.mem_singleton.2 rfl⟩

theorem witness_CommandIsRenumberable :
    State.reset.cfg.seqWidth = none ∧ State.reset.seq = 0 ∧
    exec (.records [0, 0, 0, 0]) State.reset =
      .next { State.reset with seq := 1, log := State.reset.log ++ [.ev ⟨0, 0, some 0, some 0, some 0, 32768⟩] } ∧
    decode (.command (.records [0, 0, 0, 0])) = .ok (.records [0, 0, 0, 0]) ∧
    meetsDuty (.records [0, 0, 0, 0]) = true := ⟨rfl, rfl, rfl, rfl, rfl⟩

theorem witness_SequentialRunIsTheMergedDecode : Config.standard.seqWidth = none ∧
    dutiful.program.all meetsDuty = true := ⟨rfl, witness_DutifulHostGetsACleanRun.2.2.1⟩

theorem witness_StepKeepsConsistent : emptyRecords.Consistent ∧ step emptyRecords = .next emptyRecordsDone :=
  ⟨⟨rfl, rfl, by simp [emptyRecords, State.load, State.reset, State.resetWith, Config.standard],
    by simp [emptyRecords, State.load, State.reset, State.resetWith, eventsOf],
    by simp [emptyRecords, State.load, State.reset, State.resetWith, reportsOf]⟩, rfl⟩

theorem witness_ParametersAndProgramAreConstant : exec (.records []) start = .next start ∧
    step emptyRecords = .next emptyRecordsDone ∧ step waitingCall = .next waitingCallDone := ⟨rfl, rfl, rfl⟩

/-- A unit operation with a result and one with an error. -/
theorem witness_UnitOperationsWriteNoState : isHostCommand (encode (.unpackSeq [])) = false ∧
    exec (.unpackSeq []) start = .next { start with out := .wordSeq [] } ∧
    exec (.unpackSeq [0]) start = .next { start with
      log := [.err ⟨3, .chunkLength, 1, 2, 7⟩], out := .error ⟨.chunkLength, 1⟩ } := ⟨rfl, rfl, rfl⟩

theorem witness_UnitResultsDependOnOperandsOnly : isHostCommand (encode (.unpackSeq [])) = false ∧
    exec (.unpackSeq []) start = .next { start with out := .wordSeq [] } ∧
    exec (.unpackSeq []) State.reset = .next { State.reset with out := .wordSeq [] } := ⟨rfl, rfl, rfl⟩

theorem witness_HostCommandsFrame : isHostCommand (encode (.records [0])) = true ∧ exec (.records [0]) start =
    .next { start with log := [.err ⟨5, .recordLength, 1, 2, 7⟩] } := ⟨rfl, rfl⟩

end Sys2Proof.Tests
end

section
/-!
U2 in the source's own numbering: the shift-and-mask fields of the five variants as slices by offsets from the most
significant bit (00_scope.md R9, 30_encoding.md R61 to R67), and the variant DECODE_WORD selects for a 20-bit word.
-/

namespace Sys2Proof.Machine

/-! ### Fields as source slices -/

/-- The source's slice `bits[a..b)` is the word shifted right by `20 - b` under a mask of `b - a` ones (R9). -/
theorem shiftRight_land_mask (w a b : Nat) : (w >>> (20 - b)) &&& (2 ^ (b - a) - 1) = bitsMsb w a b :=
  Nat.and_two_pow_sub_one_eq_mod _ _

/-- The type code of a 20-bit word, which `typeCode` leaves unmasked, has no bits beyond its two (R61). -/
theorem typeCode_eq_bitsMsb {w : Nat} (hw : w < 2 ^ 20) : typeCode w = bitsMsb w 0 2 := by
  simp only [typeCode, bitsMsb, Nat.shiftRight_eq_div_pow]
  omega

theorem addBit_eq_bitsMsb (w : Nat) : addBit w = bitsMsb w 2 3 := shiftRight_land_mask w 2 3

theorem dataEvent_eq_slices (w idx : Nat) : dataEvent w idx =
    ⟨idx, 0, none, some (bitsMsb w 2 7), some (bitsMsb w 7 13), bitsMsb w 13 20⟩ := by
  rw [← shiftRight_land_mask w 2 7, ← shiftRight_land_mask w 7 13, ← shiftRight_land_mask w 13 20]
  rfl

theorem sweepTrigEvent_eq_slices (w idx : Nat) : sweepTrigEvent w idx =
    ⟨idx, 1, none, none, some (bitsMsb w 2 8), bitsMsb w 8 20⟩ := by
  rw [← shiftRight_land_mask w 2 8, ← shiftRight_land_mask w 8 20]
  rfl

theorem sweepEvtEvent_eq_slices (w idx : Nat) : sweepEvtEvent w idx =
    ⟨idx, 2, none, none, some (bitsMsb w 2 8), bitsMsb w 8 20⟩ := by
  rw [← shiftRight_land_mask w 2 8, ← shiftRight_land_mask w 8 20]
  rfl

theorem noiseEvent_eq_slices (w idx : Nat) : noiseEvent w idx =
    ⟨idx, 3, some 0, some (bitsMsb w 3 4), none, bitsMsb w 4 20⟩ := by
  rw [← shiftRight_land_mask w 3 4, ← shiftRight_land_mask w 4 20]
  rfl

theorem statusEvent_eq_slices (w idx : Nat) : statusEvent w idx =
    ⟨idx, 3, some 1, none, some (bitsMsb w 3 11), bitsMsb w 11 20⟩ := by
  rw [← shiftRight_land_mask w 3 11, ← shiftRight_land_mask w 11 20]
  rfl

/-! ### The variant DECODE_WORD selects -/

theorem typeCode_le_three {w : Nat} (hw : w < 2 ^ 20) : typeCode w ≤ 3 := by
  simp only [typeCode, Nat.shiftRight_eq_div_pow]
  omega

theorem addBit_eq_zero_or_one (w : Nat) : addBit w = 0 ∨ addBit w = 1 := by
  rw [addBit_eq_bitsMsb]
  exact Nat.mod_two_eq_zero_or_one _

theorem decodeWord_of_typeCode_zero {w : Nat} (idx : Nat) (h : typeCode w = 0) :
    decodeWord w idx = .ok (dataEvent w idx) := by
  simp [decodeWord, guardCode, h]

theorem decodeWord_of_typeCode_one {w : Nat} (idx : Nat) (h : typeCode w = 1) :
    decodeWord w idx = .ok (sweepTrigEvent w idx) := by
  simp [decodeWord, guardCode, h]

theorem decodeWord_of_typeCode_two {w : Nat} (idx : Nat) (h : typeCode w = 2) :
    decodeWord w idx = .ok (sweepEvtEvent w idx) := by
  simp [decodeWord, guardCode, h]

theorem decodeWord_of_addBit_zero {w : Nat} (idx : Nat) (h : typeCode w = 3) (ha : addBit w = 0) :
    decodeWord w idx = .ok (noiseEvent w idx) := by
  simp [decodeWord, guardCode, guardAdd, h, ha]

theorem decodeWord_of_addBit_one {w : Nat} (idx : Nat) (h : typeCode w = 3) (ha : addBit w = 1) :
    decodeWord w idx = .ok (statusEvent w idx) := by
  simp [decodeWord, guardCode, guardAdd, h, ha]

/-- Everything DECODE_WORD can do with a 20-bit word: one of the five variants, by type code and add bit (R72). -/
theorem decodeWord_cases {w : Nat} (idx : Nat) (hw : w < 2 ^ 20) :
    (typeCode w = 0 ∧ decodeWord w idx = .ok (dataEvent w idx)) ∨
    (typeCode w = 1 ∧ decodeWord w idx = .ok (sweepTrigEvent w idx)) ∨
    (typeCode w = 2 ∧ decodeWord w idx = .ok (sweepEvtEvent w idx)) ∨
    (typeCode w = 3 ∧ addBit w = 0 ∧ decodeWord w idx = .ok (noiseEvent w idx)) ∨
    (typeCode w = 3 ∧ addBit w = 1 ∧ decodeWord w idx = .ok (statusEvent w idx)) := by
  have hle := typeCode_le_three hw
  obtain h | h | h | h : typeCode w = 0 ∨ typeCode w = 1 ∨ typeCode w = 2 ∨ typeCode w = 3 := by omega
  · exact .inl ⟨h, decodeWord_of_typeCode_zero idx h⟩
  · exact .inr (.inl ⟨h, decodeWord_of_typeCode_one idx h⟩)
  · exact .inr (.inr (.inl ⟨h, decodeWord_of_typeCode_two idx h⟩))
  · obtain ha | ha := addBit_eq_zero_or_one w
    · exact .inr (.inr (.inr (.inl ⟨h, ha, decodeWord_of_addBit_zero idx h ha⟩)))
    · exact .inr (.inr (.inr (.inr ⟨h, ha, decodeWord_of_addBit_one idx h ha⟩)))

/-! ### The obligation -/

/-- Settles O22: in the variant that the type code and the add bit select, each shift-and-mask field is its source
slice, and the clauses of the other variants have another code or another add bit. -/
theorem fieldsAtTheSourceOffsets : Obligations.FieldsAtTheSourceOffsets := by
  unfold Obligations.FieldsAtTheSourceOffsets
  intro w idx hw
  rw [← typeCode_eq_bitsMsb hw, ← addBit_eq_bitsMsb]
  obtain ⟨hc, hd⟩ | ⟨hc, hd⟩ | ⟨hc, hd⟩ | ⟨hc, ha, hd⟩ | ⟨hc, ha, hd⟩ := decodeWord_cases idx hw
  · exact ⟨_, hd, by simp [dataEvent_eq_slices, hc]⟩
  · exact ⟨_, hd, by simp [sweepTrigEvent_eq_slices, hc]⟩
  · exact ⟨_, hd, by simp [sweepEvtEvent_eq_slices, hc]⟩
  · exact ⟨_, hd, by simp [noiseEvent_eq_slices, hc, ha]⟩
  · exact ⟨_, hd, by simp [statusEvent_eq_slices, hc, ha]⟩

end Sys2Proof.Machine
end

section
/-!
What one instruction can do to the state, said once: the four forms of `exec`, the frame all of them keep, and their
independence of the output field (10_state.md R22 to R27). The statements on steps follow through `step_cases`.
-/

namespace Sys2Proof.Machine

/-! ### The forms of an instruction's meaning -/

theorem exec_subframe_whole {bytes : List Byte} (h : bytes.length = 495) (s : State) : exec (.subframe bytes) s =
    .next ((forEach wordUnit ((chunksOf bytes).flatMap chunkWords) s).setOut .idle) := by
  simp [exec, execSubframe, unpackSeq_whole, h]

theorem exec_subframe_wrongLength {bytes : List Byte} (h : bytes.length ≠ 495) (s : State) :
    exec (.subframe bytes) s = .next ((s.raise ⟨.subframeLength, bytes.length⟩).setOut .idle) := if_pos h

theorem exec_records_whole {bytes : List Byte} (h : bytes.length % 4 = 0) (s : State) : exec (.records bytes) s =
    .next ((forEach recordUnit (recordsOf bytes) s).setOut .idle) := if_neg (not_not_intro h)

theorem exec_records_partial {bytes : List Byte} (h : bytes.length % 4 ≠ 0) (s : State) :
    exec (.records bytes) s = .next ((s.raise ⟨.recordLength, bytes.length⟩).setOut .idle) := if_pos h

/-- Everything an instruction can be: the completion of a unit operation whose result no state has a part in, a host
command skipped for its length, or the loop of a host command over its words or its records. -/
theorem exec_cases (i : Instr) :
    (∃ (α : Type) (result : Except Raised α) (field : α → Output), ∀ s, exec i s = s.complete result field) ∨
    (∃ e : Raised, ∀ s, exec i s = .next ((s.raise e).setOut .idle)) ∨
    (∃ words : List Nat, ∀ s, exec i s = .next ((forEach wordUnit words s).setOut .idle)) ∨
    (∃ records : List Rec32, ∀ s, exec i s = .next ((forEach recordUnit records s).setOut .idle)) := by
  cases i with
  | unpack5 b0 b1 b2 b3 b4 =>
    exact .inl ⟨_, .ok (.words (event1 b0 b1 b2) (event2 b2 b3 b4)), id, fun _ => rfl⟩
  | unpackSeq bytes => exact .inl ⟨_, _, _, fun _ => rfl⟩
  | evwData w idx => exact .inl ⟨_, _, _, fun _ => rfl⟩
  | evwSweepTrig w idx => exact .inl ⟨_, _, _, fun _ => rfl⟩
  | evwSweepEvt w idx => exact .inl ⟨_, _, _, fun _ => rfl⟩
  | evwNoise w idx => exact .inl ⟨_, _, _, fun _ => rfl⟩
  | evwStatus w idx => exact .inl ⟨_, _, _, fun _ => rfl⟩
  | decodeRecord r0 r1 r2 r3 idx => exact .inl ⟨_, .ok (decodeRecord r0 r1 r2 r3 idx), .event, fun _ => rfl⟩
  | subframe bytes =>
    by_cases h : bytes.length = 495
    · exact .inr (.inr (.inl ⟨_, exec_subframe_whole h⟩))
    · exact .inr (.inl ⟨_, exec_subframe_wrongLength h⟩)
  | records bytes =>
    by_cases h : bytes.length % 4 = 0
    · exact .inr (.inr (.inr ⟨_, exec_records_whole h⟩))
    · exact .inr (.inl ⟨_, exec_records_partial h⟩)

/-! ### The frame of an instruction -/

/-- What every instruction keeps from the state `s` it executes in to the state `t` it answers: parameters, program,
waiting calls and pointer stay, the index does not move back, and the log only grows at its end. -/
structure State.Extends (s t : State) : Prop where
  cfg : t.cfg = s.cfg
  program : t.program = s.program
  calls : t.calls = s.calls
  cmd : t.cmd = s.cmd
  seq : s.seq ≤ t.seq
  log : s.log <+: t.log

theorem State.Extends.refl (s : State) : s.Extends s := ⟨rfl, rfl, rfl, rfl, Nat.le_refl _, List.prefix_rfl⟩

theorem State.Extends.trans {s t u : State} (hst : s.Extends t) (htu : t.Extends u) : s.Extends u where
  cfg := htu.cfg.trans hst.cfg
  program := htu.program.trans hst.program
  calls := htu.calls.trans hst.calls
  cmd := htu.cmd.trans hst.cmd
  seq := hst.seq.trans htu.seq
  log := hst.log.trans htu.log

theorem State.extends_setOut (s : State) (o : Output) : s.Extends (s.setOut o) :=
  ⟨rfl, rfl, rfl, rfl, Nat.le_refl _, List.prefix_rfl⟩

theorem State.extends_append (s : State) (e : Entry) : s.Extends (s.append e) :=
  ⟨rfl, rfl, rfl, rfl, Nat.le_refl _, List.prefix_append _ _⟩

theorem State.extends_raise (s : State) (e : Raised) : s.Extends (s.raise e) := s.extends_append _

theorem State.extends_emit (s : State) (ev : Event) : s.Extends (s.emit ev) := s.extends_append _

theorem State.extends_setSeq {s : State} {v : Nat} (h : s.seq ≤ v) : s.Extends (s.setSeq v) :=
  ⟨rfl, rfl, rfl, rfl, h, List.prefix_rfl⟩

/-- The state one unit of a command leaves, whether the command goes on or stops there. -/
def Progress.state : Progress → State
  | .more t => t
  | .halt t => t

@[simp] theorem Progress.state_more (t : State) : (Progress.more t).state = t := rfl

@[simp] theorem Progress.state_halt (t : State) : (Progress.halt t).state = t := rfl

theorem State.extends_skipEvent (s : State) (e : Raised) : s.Extends (s.skipEvent e) := by
  unfold State.skipEvent
  split
  · exact (s.extends_raise e).trans (State.extends_setSeq (Nat.le_succ _))
  · exact s.extends_raise e

theorem State.extends_deliver (s : State) (ev : Event) : s.Extends (s.deliver ev).state := by
  obtain ⟨-, h⟩ | ⟨-, h⟩ := s.deliver_cases ev <;> rw [h]
  · exact (s.extends_emit ev).trans (State.extends_setSeq (Nat.le_succ _))
  · exact s.extends_raise _

theorem wordUnit_extends (w : Nat) (s : State) : s.Extends (wordUnit w s).state := by
  unfold wordUnit
  cases decodeWord w s.seq with
  | error e => exact s.extends_skipEvent e
  | ok ev => exact s.extends_deliver ev

theorem recordUnit_extends (r : Rec32) (s : State) : s.Extends (recordUnit r s).state := s.extends_deliver _

theorem forEach_extends {α : Type} {unit : α → State → Progress} (hunit : ∀ a (s : State), s.Extends (unit a s).state)
    (as : List α) (s : State) : s.Extends (forEach unit as s) :=
  forEach_keeps (P := s.Extends) (fun a _ u v hu huv => hu.trans (by simpa [huv] using hunit a u))
    (fun a _ u v hu huv => hu.trans (by simpa [huv] using hunit a u)) (.refl s)

theorem State.extends_complete {α : Type} {result : Except Raised α} {field : α → Output} {s t : State}
    (h : s.complete result field = .next t) : s.Extends t := by
  cases result with
  | ok a =>
    cases h
    exact s.extends_setOut _
  | error e =>
    cases h
    exact (s.extends_raise e).trans (State.extends_setOut _ _)

theorem exec_extends {i : Instr} {s t : State} (h : exec i s = .next t) : s.Extends t := by
  obtain ⟨α, result, field, hi⟩ | ⟨e, hi⟩ | ⟨words, hi⟩ | ⟨records, hi⟩ := exec_cases i <;> rw [hi s] at h
  · exact State.extends_complete h
  · cases h
    exact (s.extends_raise e).trans (State.extends_setOut _ _)
  · cases h
    exact (forEach_extends wordUnit_extends words s).trans (State.extends_setOut _ _)
  · cases h
    exact (forEach_extends recordUnit_extends records s).trans (State.extends_setOut _ _)

/-! ### The frame of a step -/

@[simp] theorem State.advance_cfg (s : State) : s.advance.cfg = s.cfg := by
  obtain ⟨-, h⟩ | ⟨-, h⟩ := s.advance_cases <;> simp [h]

@[simp] theorem State.advance_program (s : State) : s.advance.program = s.program := by
  obtain ⟨-, h⟩ | ⟨-, h⟩ := s.advance_cases <;> simp [h]

@[simp] theorem State.advance_calls (s : State) : s.advance.calls = s.calls := by
  obtain ⟨-, h⟩ | ⟨-, h⟩ := s.advance_cases <;> simp [h]

@[simp] theorem State.advance_log (s : State) : s.advance.log = s.log := by
  obtain ⟨-, h⟩ | ⟨-, h⟩ := s.advance_cases <;> simp [h]

@[simp] theorem State.stopped_advance (s : State) : s.advance.stopped = s.stopped := by
  obtain ⟨-, h⟩ | ⟨-, h⟩ := s.advance_cases <;> simp [h]

theorem State.advance_cmd_of_not_stopped {s : State} (h : s.stopped = false) : s.advance.cmd = s.cmd + 1 := by
  simp [State.advance, h]

/-- A step that answers a next state, by the frame of the instruction it executes: a unit call is consumed and its
instruction is the step, or the pointer moves after the instruction of a host command. -/
theorem step_extends {s t : State} (h : step s = .next t) :
    (∃ u rest, s.calls = u :: rest ∧ (s.setCalls rest).Extends t) ∨
    (s.calls = [] ∧ ∃ v, s.Extends v ∧ t = v.advance) := by
  obtain ⟨-, ⟨u, rest, i, hcalls, -, hexec⟩ | ⟨c, i, v, hcalls, -, -, hexec, ht⟩⟩ := step_cases h
  · exact .inl ⟨u, rest, hcalls, exec_extends hexec⟩
  · exact .inr ⟨hcalls, v, exec_extends hexec, ht⟩

/-! ### Independence of the output field -/

/-- The same progress from an updated state. -/
def Progress.map (f : State → State) : Progress → Progress
  | .more t => .more (f t)
  | .halt t => .halt (f t)

/-- An update of the state that commutes with every unit commutes with the loop. -/
theorem forEach_map {α : Type} {unit : α → State → Progress} {f : State → State}
    (hunit : ∀ a s, unit a (f s) = (unit a s).map f) (as : List α) (s : State) :
    forEach unit as (f s) = f (forEach unit as s) := by
  induction as generalizing s with
  | nil => rfl
  | cons a rest ih =>
    have hf := hunit a s
    cases h : unit a s with
    | more t =>
      rw [h] at hf
      rw [forEach_more h, forEach_more hf, ih]
    | halt t =>
      rw [h] at hf
      rw [forEach_halt h, forEach_halt hf]

theorem State.skipEvent_setOut (s : State) (o : Output) (e : Raised) :
    (s.setOut o).skipEvent e = (s.skipEvent e).setOut o := by
  unfold State.skipEvent
  rw [State.setOut_cfg]
  split <;> rfl

theorem State.deliver_setOut (s : State) (o : Output) (ev : Event) :
    (s.setOut o).deliver ev = (s.deliver ev).map (·.setOut o) := by
  have hfits : (s.setOut o).indexFits = s.indexFits := rfl
  unfold State.deliver
  rw [hfits]
  split <;> rfl

theorem wordUnit_setOut (o : Output) (w : Nat) (s : State) :
    wordUnit w (s.setOut o) = (wordUnit w s).map (·.setOut o) := by
  unfold wordUnit
  rw [State.setOut_seq]
  cases decodeWord w s.seq with
  | error e => exact congrArg Progress.more (s.skipEvent_setOut o e)
  | ok ev => exact s.deliver_setOut o ev

theorem recordUnit_setOut (o : Output) (r : Rec32) (s : State) :
    recordUnit r (s.setOut o) = (recordUnit r s).map (·.setOut o) := s.deliver_setOut o _

@[simp] theorem State.setOut_setOut (s : State) (o o' : Output) : (s.setOut o).setOut o' = s.setOut o' := rfl

theorem State.complete_setOut {α : Type} (s : State) (o : Output) (result : Except Raised α) (field : α → Output) :
    (s.setOut o).complete result field = s.complete result field := by
  cases result <;> rfl

theorem exec_setOut (i : Instr) (s : State) (o : Output) : exec i (s.setOut o) = exec i s := by
  obtain ⟨α, result, field, hi⟩ | ⟨e, hi⟩ | ⟨words, hi⟩ | ⟨records, hi⟩ := exec_cases i <;> rw [hi, hi]
  · exact s.complete_setOut o result field
  · rfl
  · rw [forEach_map (f := (·.setOut o)) (wordUnit_setOut o), State.setOut_setOut]
  · rw [forEach_map (f := (·.setOut o)) (recordUnit_setOut o), State.setOut_setOut]

theorem State.nextRequest_setOut (s : State) (o : Output) :
    (s.setOut o).nextRequest = s.nextRequest.map fun next => (next.1, next.2.setOut o) := by
  cases h : s.calls with
  | nil => simp [h, Function.comp_def]
  | cons u rest =>
    rw [State.nextRequest_call h, State.nextRequest_call (s := s.setOut o) h]
    rfl

theorem step_setOut (s : State) (o : Output) : step (s.setOut o) = step s := by
  unfold step
  rw [State.stopped_setOut, State.nextRequest_setOut]
  cases s.nextRequest with
  | none => rfl
  | some next => simp only [Option.map_some, exec_setOut]

/-! ### The obligations -/

/-- Settles O4: by its frame an instruction leaves `cmd` alone, so the pointer moves only by what follows a host
command. -/
theorem stepAdvancesThePointerByOne : Obligations.StepAdvancesThePointerByOne := by
  unfold Obligations.StepAdvancesThePointerByOne
  refine ⟨fun s t hcalls h hstop => ?_, fun s t hcalls h => ?_, fun i s t h => (exec_extends h).cmd⟩
  · obtain ⟨u, rest, hcall, -⟩ | ⟨-, v, hv, rfl⟩ := step_extends h
    · simp [hcalls] at hcall
    · rw [State.advance_cmd_of_not_stopped (by simpa using hstop), hv.cmd]
  · obtain ⟨u, rest, -, ht⟩ | ⟨hnone, -⟩ := step_extends h
    · exact ht.cmd
    · exact absurd hnone hcalls

/-- Settles O41: the log of an instruction's frame only grows, and neither consuming a call nor moving the pointer
touches it. -/
theorem logIsAppendOnly : Obligations.LogIsAppendOnly := by
  unfold Obligations.LogIsAppendOnly
  refine ⟨fun i s t h => (exec_extends h).log, fun s t h => ?_⟩
  obtain ⟨u, rest, -, ht⟩ | ⟨-, v, hv, rfl⟩ := step_extends h
  · exact ht.log
  · simpa using hv.log

/-- Settles O48: parameters, program and waiting calls stand in an instruction's frame, and a step consumes the call it
executes. -/
theorem parametersAndProgramAreConstant : Obligations.ParametersAndProgramAreConstant := by
  unfold Obligations.ParametersAndProgramAreConstant
  refine ⟨fun i s t h => ?_, fun s t h => ?_⟩
  · have ht := exec_extends h
    exact ⟨ht.cfg, ht.program, ht.calls⟩
  · obtain ⟨u, rest, hcalls, ht⟩ | ⟨hcalls, v, hv, rfl⟩ := step_extends h
    · exact ⟨ht.cfg, ht.program, by simpa [hcalls] using ht.calls⟩
    · simp [hv.cfg, hv.program, hv.calls, hcalls]

/-- Settles O49: every form of `exec` commutes with an update of the output field and then overwrites it, and the choice
of the next request does not read it. -/
theorem outputFieldsAreNeverRead : Obligations.OutputFieldsAreNeverRead := by
  unfold Obligations.OutputFieldsAreNeverRead
  exact ⟨exec_setOut, step_setOut⟩

end Sys2Proof.Machine
end

section
/-!
The encodings of 30_encoding.md: the layouts' packing as sums, the bits the masks of the variant table keep, the row a
word selects, and what packed words and records decode and execute to.
-/

namespace Sys2Proof

open Machine

/-! ### Packed fields and masked fields as arithmetic -/

/-- A field put above the bits of a lower one. -/
theorem shiftLeft_lor {b i : Nat} (h : b < 2 ^ i) (a : Nat) : (a <<< i) ||| b = 2 ^ i * a + b := by
  rw [← Nat.shiftLeft_add_eq_or_of_lt h, Nat.shiftLeft_eq, Nat.mul_comm]

/-- A mask that starts at bit `n` keeps the bits it would keep of the word shifted down to it. -/
theorem land_shiftLeft (w m n : Nat) : w &&& (m <<< n) = ((w >>> n) &&& m) <<< n := by
  refine Nat.eq_of_testBit_eq fun i => ?_
  by_cases h : n ≤ i <;> simp [h]

/-- The mask of a variant with a code of its own keeps the type code, in its place (R68). -/
theorem land_codeMask (w : Nat) : w &&& 0xC0000 = 2 ^ 18 * (typeCode w % 4) := by
  have hmask : typeCode w &&& 3 = typeCode w % 4 := Nat.and_two_pow_sub_one_eq_mod _ 2
  calc w &&& (3 <<< 18) = (typeCode w &&& 3) <<< 18 := land_shiftLeft w 3 18
    _ = 2 ^ 18 * (typeCode w % 4) := by rw [hmask, Nat.shiftLeft_eq, Nat.mul_comm]

/-- The mask of a code-3 variant keeps the type code and the add bit, each in its place (R68). -/
theorem land_codeAddMask (w : Nat) : w &&& 0xE0000 = 2 ^ 18 * (typeCode w % 4) + 2 ^ 17 * addBit w := by
  have hmask : (w >>> 17) &&& 7 = (w >>> 17) % 8 := Nat.and_two_pow_sub_one_eq_mod _ 3
  calc w &&& (7 <<< 17) = ((w >>> 17) &&& 7) <<< 17 := land_shiftLeft w 7 17
    _ = 2 ^ 17 * ((w >>> 17) % 8) := by rw [hmask, Nat.shiftLeft_eq, Nat.mul_comm]
    _ = 2 ^ 18 * (typeCode w % 4) + 2 ^ 17 * addBit w := by
      simp only [typeCode, addBit, Nat.and_one_is_mod, Nat.shiftRight_eq_div_pow]
      omega

/-! ### A 20-bit word of each variant -/

/-- The type code, and for code 3 the add bit, of a 20-bit word of the variant (R61, R65). -/
def Variant.Tags (v : Variant) (w : Nat) : Prop :=
  match v with
  | .data => typeCode w = 0
  | .sweepTrig => typeCode w = 1
  | .sweepEvt => typeCode w = 2
  | .noise => typeCode w = 3 ∧ addBit w = 0
  | .status => typeCode w = 3 ∧ addBit w = 1

/-- The event of a word of the variant (41_event_word_decoder.md R122 to R127). -/
def Variant.event (v : Variant) (w idx : Nat) : Event :=
  match v with
  | .data => dataEvent w idx
  | .sweepTrig => sweepTrigEvent w idx
  | .sweepEvt => sweepEvtEvent w idx
  | .noise => noiseEvent w idx
  | .status => statusEvent w idx

theorem Variant.Tags.wellFormed {v : Variant} {w : Nat} (h : v.Tags w) (idx : Nat) :
    (v.instr w idx).wellFormed = true := by
  cases v <;> simp_all [Variant.Tags, Variant.instr, Instr.wellFormed, land_codeMask, land_codeAddMask]

theorem Variant.Tags.typeCode_le_three {v : Variant} {w : Nat} (h : v.Tags w) : typeCode w ≤ 3 := by
  cases v <;> simp_all [Variant.Tags]

theorem guardCode_of_typeCode_le {w : Nat} (h : typeCode w ≤ 3) (result : Except Raised Event) :
    guardCode w result = result := if_neg (Nat.not_lt.2 h)

theorem guardAdd_eq (w : Nat) (result : Except Raised Event) : guardAdd w result = result :=
  if_pos (addBit_eq_zero_or_one w)

/-- Each EVW row completes with its variant's event behind the guard on the code. -/
theorem Variant.exec_instr (v : Variant) (w idx : Nat) (s : State) :
    exec (v.instr w idx) s = s.complete (guardCode w (.ok (v.event w idx))) .event := by
  cases v with
  | data | sweepTrig | sweepEvt => rfl
  | noise => exact congrArg (fun r => s.complete (guardCode w r) .event) (guardAdd_eq w _)
  | status => exact congrArg (fun r => s.complete (guardCode w r) .event) (guardAdd_eq w _)

theorem Variant.decode_encode (v : Variant) {w idx : Nat} (h : (v.instr w idx).wellFormed = true) :
    decode (.call (.decodeWord w idx)) = .ok (v.instr w idx) := by
  cases v with
  | data => exact Laws.RoundTrip.evwData w idx h
  | sweepTrig => exact Laws.RoundTrip.evwSweepTrig w idx h
  | sweepEvt => exact Laws.RoundTrip.evwSweepEvt w idx h
  | noise => exact Laws.RoundTrip.evwNoise w idx h
  | status => exact Laws.RoundTrip.evwStatus w idx h

/-- A word with a variant's tags decodes under the table's numbering to the variant's row, whose execution gives the
variant's event. -/
theorem Variant.decodes_and_executes {v : Variant} {w idx : Nat} {ev : Event} (s : State)
    (h : v.Tags w ∧ v.event w idx = ev) :
    decodeTableWord 24 w = some (v.instr w 0) ∧ exec (v.instr w idx) s = .next { s with out := .event ev } := by
  obtain ⟨htags, rfl⟩ := h
  constructor
  · simp [decodeTableWord, tableCall, v.decode_encode (htags.wellFormed 0), Except.toOption]
  · rw [v.exec_instr, guardCode_of_typeCode_le htags.typeCode_le_three]
    rfl

/-! ### Packed words -/

theorem packData_eq {t v : Nat} (d : Nat) (ht : t < 2 ^ 6) (hv : v < 2 ^ 7) :
    packData d t v = 2 ^ 13 * d + (2 ^ 7 * t + v) := by
  rw [packData, Nat.lor_assoc, shiftLeft_lor hv, shiftLeft_lor (by omega)]

theorem packSweepTrig_eq {t v : Nat} (ht : t < 2 ^ 6) (hv : v < 2 ^ 12) :
    packSweepTrig t v = 2 ^ 18 * 1 + (2 ^ 12 * t + v) := by
  rw [packSweepTrig, Nat.lor_assoc, shiftLeft_lor hv, shiftLeft_lor (by omega)]

theorem packSweepEvt_eq {t v : Nat} (ht : t < 2 ^ 6) (hv : v < 2 ^ 12) :
    packSweepEvt t v = 2 ^ 18 * 2 + (2 ^ 12 * t + v) := by
  rw [packSweepEvt, Nat.lor_assoc, shiftLeft_lor hv, shiftLeft_lor (by omega)]

theorem packNoise_eq {d v : Nat} (hd : d < 2) (hv : v < 2 ^ 16) :
    packNoise d v = 2 ^ 18 * 3 + (2 ^ 16 * d + v) := by
  rw [packNoise, Nat.lor_assoc, shiftLeft_lor hv, shiftLeft_lor (by omega)]

theorem packStatus_eq {t v : Nat} (ht : t < 2 ^ 8) (hv : v < 2 ^ 9) :
    packStatus t v = 2 ^ 18 * 3 + (2 ^ 17 * 1 + (2 ^ 9 * t + v)) := by
  rw [packStatus, Nat.lor_assoc, Nat.lor_assoc, shiftLeft_lor hv, shiftLeft_lor (by omega) 1,
    shiftLeft_lor (by omega)]

theorem packData_carries {d t v : Nat} (idx : Nat) (hd : d < 2 ^ 5) (ht : t < 2 ^ 6) (hv : v < 2 ^ 7) :
    Variant.data.Tags (packData d t v) ∧
    Variant.data.event (packData d t v) idx = ⟨idx, 0, none, some d, some t, v⟩ := by
  rw [packData_eq d ht hv]
  simp only [Variant.Tags, typeCode, Variant.event, dataEvent_eq_slices, bitsMsb, Nat.shiftRight_eq_div_pow,
    Event.mk.injEq, Option.some.injEq, true_and]
  omega

theorem packSweepTrig_carries {t v : Nat} (idx : Nat) (ht : t < 2 ^ 6) (hv : v < 2 ^ 12) :
    Variant.sweepTrig.Tags (packSweepTrig t v) ∧
    Variant.sweepTrig.event (packSweepTrig t v) idx = ⟨idx, 1, none, none, some t, v⟩ := by
  rw [packSweepTrig_eq ht hv]
  simp only [Variant.Tags, typeCode, Variant.event, sweepTrigEvent_eq_slices, bitsMsb, Nat.shiftRight_eq_div_pow,
    Event.mk.injEq, Option.some.injEq, true_and]
  omega

theorem packSweepEvt_carries {t v : Nat} (idx : Nat) (ht : t < 2 ^ 6) (hv : v < 2 ^ 12) :
    Variant.sweepEvt.Tags (packSweepEvt t v) ∧
    Variant.sweepEvt.event (packSweepEvt t v) idx = ⟨idx, 2, none, none, some t, v⟩ := by
  rw [packSweepEvt_eq ht hv]
  simp only [Variant.Tags, typeCode, Variant.event, sweepEvtEvent_eq_slices, bitsMsb, Nat.shiftRight_eq_div_pow,
    Event.mk.injEq, Option.some.injEq, true_and]
  omega

theorem packNoise_carries {d v : Nat} (idx : Nat) (hd : d < 2) (hv : v < 2 ^ 16) :
    Variant.noise.Tags (packNoise d v) ∧
    Variant.noise.event (packNoise d v) idx = ⟨idx, 3, some 0, some d, none, v⟩ := by
  rw [packNoise_eq hd hv]
  simp only [Variant.Tags, typeCode, addBit_eq_bitsMsb, Variant.event, noiseEvent_eq_slices, bitsMsb,
    Nat.shiftRight_eq_div_pow, Event.mk.injEq, Option.some.injEq, true_and]
  omega

theorem packStatus_carries {t v : Nat} (idx : Nat) (ht : t < 2 ^ 8) (hv : v < 2 ^ 9) :
    Variant.status.Tags (packStatus t v) ∧
    Variant.status.event (packStatus t v) idx = ⟨idx, 3, some 1, none, some t, v⟩ := by
  rw [packStatus_eq ht hv]
  simp only [Variant.Tags, typeCode, addBit_eq_bitsMsb, Variant.event, statusEvent_eq_slices, bitsMsb,
    Nat.shiftRight_eq_div_pow, Event.mk.injEq, Option.some.injEq, true_and]
  omega

/-! ### The bytes of a number, and packed records -/

theorem byteAt_toNat (v lo : Nat) : (byteAt v lo).toNat = v / 2 ^ lo % 256 := by
  rw [byteAt, BitVec.toNat_ofNat, Nat.shiftRight_eq_div_pow]

theorem byteAt_eq {v lo : Nat} {b : Byte} (h : v / 2 ^ lo % 256 = b.toNat) : byteAt v lo = b :=
  BitVec.eq_of_toNat_eq ((byteAt_toNat v lo).trans h)

/-- DECODE_RECORD's fields by division instead of shift and mask (42_event_record_decoder.md R150, R152). -/
theorem decodeRecord_eq_quotients (r0 r1 r2 r3 : Byte) (idx : Nat) : decodeRecord r0 r1 r2 r3 idx =
    ⟨idx, r0.toNat / 2 ^ 6 % 2 ^ 2, some (r0.toNat / 2 ^ 5 % 2 ^ 1), some (r0.toNat % 2 ^ 5), some r1.toNat,
      (2 ^ 8 * r2.toNat + r3.toNat + 32768) % 65536⟩ := by
  simp only [← Nat.and_two_pow_sub_one_eq_mod _ 5, ← Nat.and_two_pow_sub_one_eq_mod _ 2,
    ← Nat.and_two_pow_sub_one_eq_mod _ 1, ← Nat.shiftRight_eq_div_pow, ← shiftLeft_lor r3.isLt]
  rfl

theorem packRecord_eq {a d t v : Nat} (c : Nat) (ha : a < 2) (hd : d < 2 ^ 5) (ht : t < 2 ^ 8) (hv : v < 2 ^ 16) :
    packRecord c a d t v = 2 ^ 30 * c + (2 ^ 29 * a + (2 ^ 24 * d + (2 ^ 16 * t + v))) := by
  rw [packRecord, Nat.lor_assoc, Nat.lor_assoc, Nat.lor_assoc, shiftLeft_lor hv, shiftLeft_lor (by omega) d,
    shiftLeft_lor (by omega) a, shiftLeft_lor (by omega)]

/-- The bytes of a packed record, most significant first, hold its fields, and the data comes out biased. -/
theorem decodeRecord_packRecord {c a d t v : Nat} (idx : Nat) (hc : c < 4) (ha : a < 2) (hd : d < 2 ^ 5)
    (ht : t < 2 ^ 8) (hv : v < 2 ^ 16) :
    (let R := packRecord c a d t v
     decodeRecord (byteAt R 24) (byteAt R 16) (byteAt R 8) (byteAt R 0) idx) =
      ⟨idx, c, some a, some d, some t, (v + 32768) % 65536⟩ := by
  simp only [packRecord_eq c ha hd ht hv, decodeRecord_eq_quotients, byteAt_toNat, Event.mk.injEq, Option.some.injEq,
    true_and]
  omega

/-! ### The obligations on packing and numbering -/

/-- Settles O27: each layout's packing is the sum of its fields at their places, so the tags select the variant's row
and the slices, or the record's bytes, give the fields back. -/
theorem packedFieldsDecodeBack : Obligations.PackedFieldsDecodeBack := by
  unfold Obligations.PackedFieldsDecodeBack
  intro idx s
  refine ⟨fun d hd t ht v hv => Variant.decodes_and_executes s (packData_carries idx hd ht hv),
    fun t ht v hv => Variant.decodes_and_executes s (packSweepTrig_carries idx ht hv),
    fun t ht v hv => Variant.decodes_and_executes s (packSweepEvt_carries idx ht hv),
    fun d hd v hv => Variant.decodes_and_executes s (packNoise_carries idx hd hv),
    fun t ht v hv => Variant.decodes_and_executes s (packStatus_carries idx ht hv),
    fun c hc a ha d hd t ht v hv => ⟨_, _, _, _, rfl, ?_⟩⟩
  rw [← decodeRecord_packRecord idx hc ha hd ht hv]
  rfl

/-- Settles O28: byte `k` of a number in base 256 is its digit at `2 ^ 8k`, and each numbering lists its digits in
stream order. -/
theorem tableNumbersKeepTheByteOrder : Obligations.TableNumbersKeepTheByteOrder := by
  unfold Obligations.TableNumbersKeepTheByteOrder
  constructor
  · intro b0 b1 b2 b3 b4
    simp only [decodeTableWord, tableCall]
    rw [byteAt_eq (b := b0) (by omega), byteAt_eq (b := b1) (by omega), byteAt_eq (b := b2) (by omega),
      byteAt_eq (b := b3) (by omega), byteAt_eq (b := b4) (by omega)]
    rfl
  · intro r0 r1 r2 r3
    simp only [decodeTableWord, tableCall]
    rw [byteAt_eq (b := r0) (by omega), byteAt_eq (b := r1) (by omega), byteAt_eq (b := r2) (by omega),
      byteAt_eq (b := r3) (by omega)]
    rfl

/-- Settles O31 by evaluating the decoder on the words written out. -/
theorem writtenOutWordsDecode : Obligations.WrittenOutWordsDecode := by
  unfold Obligations.WrittenOutWordsDecode
  decide

end Sys2Proof
end

section
/-!
The decoder as a selection (30_encoding.md R68, R72 to R74): the one row of the variant table that a word selects, what
the decoder accepts, and the chunks and records it rejects.
-/

namespace Sys2Proof

open Machine

/-! ### The row a word selects -/

/-- Every mask lies within the three top bits of a 20-bit word. -/
theorem VariantRow.selects_topBits {row : VariantRow} (h : row ∈ variantTable) (w : Nat) :
    row.selects (w &&& 0xE0000) = row.selects w := by
  have hmask : 0xE0000 &&& row.mask = row.mask := by
    revert row
    decide
  rw [VariantRow.selects, VariantRow.selects, Nat.and_assoc, hmask]

theorem topBits_eq_shift (w : Nat) : ∃ k < 8, w &&& 0xE0000 = k <<< 17 :=
  ⟨(w >>> 17) &&& 7, Nat.and_lt_two_pow (n := 3) _ (by decide), land_shiftLeft w 7 17⟩

/-- Each of the eight values of the top bits selects exactly one row. -/
theorem selectedRows_length (w : Nat) : (variantTable.filter (·.selects w)).length = 1 := by
  obtain ⟨k, hk, hw⟩ := topBits_eq_shift w
  have hrows : ∀ k < 8, (variantTable.filter (·.selects (k <<< 17))).length = 1 := by decide
  rw [← hrows k hk, ← hw, List.filter_congr fun row hrow => (VariantRow.selects_topBits hrow w).symm]

/-- Settles O20: the rows that a word selects are a list of length one. -/
theorem everyWordSelectsOneVariant : Obligations.EveryWordSelectsOneVariant := by
  unfold Obligations.EveryWordSelectsOneVariant
  intro w _
  obtain ⟨row, hrow⟩ := List.length_eq_one_iff.1 (selectedRows_length w)
  have hmem : ∀ row', row' ∈ variantTable ∧ w &&& row'.mask = row'.pattern ↔ row' = row := fun row' => by
    rw [← List.mem_singleton (a := row'), ← hrow, List.mem_filter, VariantRow.selects, beq_iff_eq]
  exact ⟨row, (hmem row).2 rfl, fun row' h => (hmem row').1 h⟩

theorem selectVariant_isSome (w : Nat) : ∃ v, selectVariant w = some v := by
  obtain ⟨row, hrow⟩ := List.length_eq_one_iff.1 (selectedRows_length w)
  have hsel : row ∈ variantTable ∧ row.selects w = true := List.mem_filter.1 (hrow ▸ List.mem_singleton_self row)
  rw [← Option.isSome_iff_exists, selectVariant, Option.isSome_map, List.find?_isSome]
  exact ⟨row, hsel⟩

/-- A row of the table selects a word exactly when its instruction on the word is well-formed. -/
theorem VariantRow.selects_eq_wellFormed {row : VariantRow} (h : row ∈ variantTable) (w idx : Nat) :
    row.selects w = (row.variant.instr w idx).wellFormed := by
  simp only [variantTable, List.mem_cons, List.not_mem_nil, or_false] at h
  rcases h with rfl | rfl | rfl | rfl | rfl <;> rfl

theorem wellFormed_of_selectVariant {w : Nat} {v : Variant} (h : selectVariant w = some v) (idx : Nat) :
    (v.instr w idx).wellFormed = true := by
  obtain ⟨row, hfind, rfl⟩ := Option.map_eq_some_iff.1 h
  rw [← VariantRow.selects_eq_wellFormed (List.mem_of_find?_eq_some hfind)]
  exact List.find?_some (p := fun row : VariantRow => row.selects w) hfind

/-! ### What the decoder accepts and rejects -/

theorem Variant.encode_instr (v : Variant) (w idx : Nat) : encode (v.instr w idx) = .call (.decodeWord w idx) := by
  cases v <;> rfl

/-- The decoder reads every word, under the row it selects (R72, R73). -/
theorem decode_word (w idx : Nat) : ∃ v : Variant, (v.instr w idx).wellFormed = true ∧
    decode (.call (.decodeWord w idx)) = .ok (v.instr w idx) := by
  obtain ⟨v, hv⟩ := selectVariant_isSome w
  have hwf := wellFormed_of_selectVariant hv idx
  exact ⟨v, hwf, v.decode_encode hwf⟩

/-- A chunk is read as its five bytes, or rejected for its size (R60, R74). -/
theorem decode_chunk (bytes : List Byte) :
    (∃ b0 b1 b2 b3 b4, bytes = [b0, b1, b2, b3, b4] ∧
      decode (.call (.unpack5 bytes)) = .ok (.unpack5 b0 b1 b2 b3 b4)) ∨
    (bytes.length ≠ 5 ∧ decode (.call (.unpack5 bytes)) = .error (.chunkSize bytes.length)) := by
  match bytes with
  | [b0, b1, b2, b3, b4] => exact .inl ⟨b0, b1, b2, b3, b4, rfl, rfl⟩
  | [] | [_] | [_, _] | [_, _, _] | [_, _, _, _] => exact .inr ⟨by simp, rfl⟩
  | _ :: _ :: _ :: _ :: _ :: _ :: _ => exact .inr ⟨by simp, rfl⟩

/-- A record is read as its four bytes, or rejected for its size (R69, R74). -/
theorem decode_record (bytes : List Byte) (idx : Nat) :
    (∃ r0 r1 r2 r3, bytes = [r0, r1, r2, r3] ∧
      decode (.call (.decodeRecord bytes idx)) = .ok (.decodeRecord r0 r1 r2 r3 idx)) ∨
    (bytes.length ≠ 4 ∧ decode (.call (.decodeRecord bytes idx)) = .error (.recordSize bytes.length)) := by
  match bytes with
  | [r0, r1, r2, r3] => exact .inl ⟨r0, r1, r2, r3, rfl, rfl⟩
  | [] | [_] | [_, _] | [_, _, _] => exact .inr ⟨by simp, rfl⟩
  | _ :: _ :: _ :: _ :: _ :: _ => exact .inr ⟨by simp, rfl⟩

/-- Everything the decoder can do: accept a request whose encoding gives it back, or reject a chunk or a record for its
size. -/
theorem decode_cases (r : Request) :
    (∃ i, decode r = .ok i ∧ i.wellFormed = true ∧ encode i = r) ∨
    (∃ bytes, r = .call (.unpack5 bytes) ∧ bytes.length ≠ 5 ∧ decode r = .error (.chunkSize bytes.length)) ∨
    (∃ bytes idx, r = .call (.decodeRecord bytes idx) ∧ bytes.length ≠ 4 ∧
      decode r = .error (.recordSize bytes.length)) := by
  match r with
  | .command (.subframe bytes) => exact .inl ⟨_, rfl, rfl, rfl⟩
  | .command (.records bytes) => exact .inl ⟨_, rfl, rfl, rfl⟩
  | .call (.unpackSeq bytes) => exact .inl ⟨_, rfl, rfl, rfl⟩
  | .call (.unpack5 bytes) =>
    obtain ⟨b0, b1, b2, b3, b4, rfl, h⟩ | ⟨hlen, h⟩ := decode_chunk bytes
    · exact .inl ⟨_, h, rfl, rfl⟩
    · exact .inr (.inl ⟨bytes, rfl, hlen, h⟩)
  | .call (.decodeWord w idx) =>
    obtain ⟨v, hwf, h⟩ := decode_word w idx
    exact .inl ⟨_, h, hwf, v.encode_instr w idx⟩
  | .call (.decodeRecord bytes idx) =>
    obtain ⟨r0, r1, r2, r3, rfl, h⟩ | ⟨hlen, h⟩ := decode_record bytes idx
    · exact .inl ⟨_, h, rfl, rfl⟩
    · exact .inr (.inr ⟨bytes, idx, rfl, hlen, h⟩)

theorem step_of_decode_error {s : State} {u : UnitCall} {rest : List UnitCall} {e : DecodeError}
    (hstop : s.stopped = false) (hcalls : s.calls = u :: rest) (he : decode (.call u) = .error e) :
    step s = .refused (.malformed e) := by
  simp [step, hstop, State.nextRequest_call hcalls, he]

/-! ### The obligations on decoding -/

/-- Settles O29: the first of the decoder's cases is the only one that accepts. -/
theorem decodedRequestsEncodeBack : Obligations.DecodedRequestsEncodeBack := by
  unfold Obligations.DecodedRequestsEncodeBack
  intro r i hi
  obtain ⟨j, hj, hwf, henc⟩ | ⟨bytes, -, -, hj⟩ | ⟨bytes, idx, -, -, hj⟩ := decode_cases r <;>
    rw [hi] at hj <;> cases hj
  exact ⟨hwf, henc⟩

/-- Settles O30: the decoder's other two cases are its rejections, and `decode_chunk` and `decode_record` say that
their sizes are always rejected. -/
theorem decoderRejectsOnlyWrongSizes : Obligations.DecoderRejectsOnlyWrongSizes := by
  unfold Obligations.DecoderRejectsOnlyWrongSizes
  refine ⟨fun r e => ⟨fun h => ?_, fun h => ?_⟩, fun s u rest e => step_of_decode_error⟩
  · obtain ⟨i, hi, -⟩ | ⟨bytes, hr, hlen, hi⟩ | ⟨bytes, idx, hr, hlen, hi⟩ := decode_cases r <;>
      rw [h] at hi <;> cases hi
    · exact .inl ⟨bytes, hr, hlen, rfl⟩
    · exact .inr ⟨bytes, idx, hr, hlen, rfl⟩
  · obtain ⟨bytes, rfl, hlen, rfl⟩ | ⟨bytes, idx, rfl, hlen, rfl⟩ := h
    · obtain ⟨b0, b1, b2, b3, b4, rfl, -⟩ | ⟨-, hd⟩ := decode_chunk bytes
      · exact absurd rfl hlen
      · exact hd
    · obtain ⟨r0, r1, r2, r3, rfl, -⟩ | ⟨-, hd⟩ := decode_record bytes idx
      · exact absurd rfl hlen
      · exact hd

end Sys2Proof
end

section
/-!
The bounds of an event's fields (30_encoding.md R70, R71), from the widths of the slices each variant takes and of the
record's fields, and where an instruction's event comes from.
-/

namespace Sys2Proof

open Machine

/-! ### The bounds of each layout's event -/

/-- Within U2 the tighter bounds of each variant's widths (30_encoding.md R68, R71). -/
def Machine.Event.inVariantWidths (ev : Event) : Prop :=
  (ev.code = 0 → (∀ d ∈ ev.detId, d < 2 ^ 5) ∧ (∀ t ∈ ev.timestamp, t < 2 ^ 6) ∧ ev.data < 2 ^ 7) ∧
  (ev.code = 1 ∨ ev.code = 2 → (∀ t ∈ ev.timestamp, t < 2 ^ 6) ∧ ev.data < 2 ^ 12) ∧
  (ev.code = 3 ∧ ev.add = some 0 → (∀ d ∈ ev.detId, d < 2) ∧ ev.data < 2 ^ 16) ∧
  (ev.code = 3 ∧ ev.add = some 1 → (∀ t ∈ ev.timestamp, t < 2 ^ 8) ∧ ev.data < 2 ^ 9)

/-- A slice of `b - a` bits is below `2 ^ (b - a)`. -/
theorem bitsMsb_lt (w a b : Nat) : bitsMsb w a b < 2 ^ (b - a) := Nat.mod_lt _ (Nat.two_pow_pos _)

theorem Variant.event_inVariantWidths (v : Variant) (w idx : Nat) : (v.event w idx).inVariantWidths := by
  unfold Event.inVariantWidths
  cases v with
  | data =>
    simpa [Variant.event, dataEvent_eq_slices] using ⟨bitsMsb_lt w 2 7, bitsMsb_lt w 7 13, bitsMsb_lt w 13 20⟩
  | sweepTrig => simpa [Variant.event, sweepTrigEvent_eq_slices] using ⟨bitsMsb_lt w 2 8, bitsMsb_lt w 8 20⟩
  | sweepEvt => simpa [Variant.event, sweepEvtEvent_eq_slices] using ⟨bitsMsb_lt w 2 8, bitsMsb_lt w 8 20⟩
  | noise => simpa [Variant.event, noiseEvent_eq_slices] using
    ⟨Nat.le_of_lt_succ (bitsMsb_lt w 3 4), bitsMsb_lt w 4 20⟩
  | status => simpa [Variant.event, statusEvent_eq_slices] using ⟨bitsMsb_lt w 3 11, bitsMsb_lt w 11 20⟩

/-- A slice is below every bound its width is below. -/
theorem bitsMsb_lt_of_le {w a b n : Nat} (h : 2 ^ (b - a) ≤ n) : bitsMsb w a b < n :=
  Nat.lt_of_lt_of_le (bitsMsb_lt w a b) h

/-- The bounds of R71 hold for every variant, whatever its widths. -/
theorem Variant.event_inBounds (v : Variant) (w idx : Nat) : (v.event w idx).inBounds := by
  unfold Event.inBounds
  cases v with
  | data => simp [Variant.event, dataEvent_eq_slices, bitsMsb_lt_of_le]
  | sweepTrig => simp [Variant.event, sweepTrigEvent_eq_slices, bitsMsb_lt_of_le]
  | sweepEvt => simp [Variant.event, sweepEvtEvent_eq_slices, bitsMsb_lt_of_le]
  | noise => simp [Variant.event, noiseEvent_eq_slices, bitsMsb_lt_of_le]
  | status => simp [Variant.event, statusEvent_eq_slices, bitsMsb_lt_of_le]

theorem decodeRecord_inBounds (r0 r1 r2 r3 : Byte) (idx : Nat) : (decodeRecord r0 r1 r2 r3 idx).inBounds := by
  simp only [Event.inBounds, decodeRecord_eq_quotients, Option.mem_some_iff, forall_eq']
  omega

/-! ### Where an event comes from -/

theorem guardCode_of_typeCode_gt {w : Nat} (h : 3 < typeCode w) (result : Except Raised Event) :
    guardCode w result = .error ⟨.unreachableCode, w⟩ := if_pos h

/-- The guard on the code lets through what it guards, or nothing. -/
theorem guardCode_ok {w : Nat} {result : Except Raised Event} {ev : Event} (h : guardCode w result = .ok ev) :
    typeCode w ≤ 3 ∧ result = .ok ev := by
  by_cases hcode : typeCode w ≤ 3
  · exact ⟨hcode, by rwa [guardCode_of_typeCode_le hcode] at h⟩
  · rw [guardCode_of_typeCode_gt (Nat.lt_of_not_le hcode)] at h
    cases h

/-- DECODE_WORD's events are the variants' events. -/
theorem decodeWord_ok {w idx : Nat} {ev : Event} (h : decodeWord w idx = .ok ev) :
    ∃ v : Variant, v.event w idx = ev := by
  have hcode : typeCode w ≤ 3 := (guardCode_ok h).1
  have hw : w < 2 ^ 20 := by
    simp only [typeCode, Nat.shiftRight_eq_div_pow] at hcode
    omega
  obtain ⟨-, hd⟩ | ⟨-, hd⟩ | ⟨-, hd⟩ | ⟨-, -, hd⟩ | ⟨-, -, hd⟩ := decodeWord_cases idx hw <;>
    rw [h] at hd <;> cases hd
  · exact ⟨.data, rfl⟩
  · exact ⟨.sweepTrig, rfl⟩
  · exact ⟨.sweepEvt, rfl⟩
  · exact ⟨.noise, rfl⟩
  · exact ⟨.status, rfl⟩

/-- A unit operation that leaves an event in the output field had it as its result. -/
theorem complete_event {α : Type} {result : Except Raised α} {field : α → Output} {s t : State} {ev : Event}
    (h : s.complete result field = .next t) (hout : t.out = .event ev) :
    ∃ a, result = .ok a ∧ field a = .event ev := by
  cases result with
  | ok a =>
    cases h
    exact ⟨a, rfl, hout⟩
  | error e =>
    cases h
    cases hout

theorem Variant.exec_event {v : Variant} {w idx : Nat} {s t : State} {ev : Event}
    (h : exec (v.instr w idx) s = .next t) (hout : t.out = .event ev) : v.event w idx = ev := by
  rw [v.exec_instr] at h
  obtain ⟨a, ha, hfield⟩ := complete_event h hout
  cases (guardCode_ok ha).2
  cases hfield
  rfl

/-- An instruction's event is the event of a variant or of a record: the other instructions leave no event in the output
field. -/
theorem exec_event {i : Instr} {s t : State} {ev : Event} (h : exec i s = .next t) (hout : t.out = .event ev) :
    (∃ (v : Variant) (w idx : Nat), v.event w idx = ev) ∨
    (∃ r0 r1 r2 r3 idx, decodeRecord r0 r1 r2 r3 idx = ev) := by
  cases i with
  | unpack5 b0 b1 b2 b3 b4 =>
    cases h
    cases hout
  | unpackSeq bytes =>
    obtain ⟨W, -, hfield⟩ := complete_event h hout
    cases hfield
  | evwData w idx => exact .inl ⟨.data, w, idx, Variant.exec_event h hout⟩
  | evwSweepTrig w idx => exact .inl ⟨.sweepTrig, w, idx, Variant.exec_event h hout⟩
  | evwSweepEvt w idx => exact .inl ⟨.sweepEvt, w, idx, Variant.exec_event h hout⟩
  | evwNoise w idx => exact .inl ⟨.noise, w, idx, Variant.exec_event h hout⟩
  | evwStatus w idx => exact .inl ⟨.status, w, idx, Variant.exec_event h hout⟩
  | decodeRecord r0 r1 r2 r3 idx =>
    cases h
    cases hout
    exact .inr ⟨r0, r1, r2, r3, idx, rfl⟩
  | subframe bytes =>
    by_cases hlen : bytes.length = 495
    · rw [exec_subframe_whole hlen] at h
      cases h
      cases hout
    · rw [exec_subframe_wrongLength hlen] at h
      cases h
      cases hout
  | records bytes =>
    by_cases hlen : bytes.length % 4 = 0
    · rw [exec_records_whole hlen] at h
      cases h
      cases hout
    · rw [exec_records_partial hlen] at h
      cases h
      cases hout

/-- Settles O23: every event is a variant's or a record's, and each of those keeps its widths. -/
theorem eventFieldsAreInBounds : Obligations.EventFieldsAreInBounds := by
  unfold Obligations.EventFieldsAreInBounds
  refine ⟨fun i s t ev h hout => ?_, fun w idx ev h => ?_⟩
  · obtain ⟨v, w, idx, rfl⟩ | ⟨r0, r1, r2, r3, idx, rfl⟩ := exec_event h hout
    · exact v.event_inBounds w idx
    · exact decodeRecord_inBounds r0 r1 r2 r3 idx
  · obtain ⟨v, rfl⟩ := decodeWord_ok h
    exact ⟨v.event_inBounds w idx, v.event_inVariantWidths w idx⟩

end Sys2Proof
end

section
/-!
The printed form of the event list (30_encoding.md R76 to R78): which characters the fields and the line hold, and
reading decimal numbers and fields back.
-/

namespace Sys2Proof.Machine

/-! ### Decimal numbers and optional fields -/

theorem isDecimalDigit_of_mem_decimal {n : Nat} {c : Char} (h : c ∈ decimal n) : isDecimalDigit c = true :=
  Nat.isDigit_of_mem_toDigits (by decide) (by decide) h

theorem not_mem_decimal {c : Char} (h : isDecimalDigit c = false) (n : Nat) : c ∉ decimal n := fun hc => by
  simp [isDecimalDigit_of_mem_decimal hc] at h

@[simp] theorem readDecimal_decimal (n : Nat) : readDecimal (decimal n) = some n := by
  have hdigits : decimal n ≠ [] ∧ (decimal n).all isDecimalDigit :=
    ⟨Nat.toDigits_ne_nil, List.all_eq_true.2 fun _ => isDecimalDigit_of_mem_decimal⟩
  rw [readDecimal, if_pos hdigits, decimal, Nat.ofDigitChars_ten_toDigits]

/-- No number reads as an absent field: the text of an absent field begins with a minus sign (R77). -/
@[simp] theorem readOption_optionText (o : Option Nat) : readOption (optionText o) = some o := by
  cases o with
  | none => rfl
  | some n =>
    have hpresent : decimal n ≠ ['-', '1'] := fun h => not_mem_decimal (c := '-') rfl n (by simp [h])
    simp [readOption, optionText, hpresent]

theorem not_mem_optionText {c : Char} (hdigit : isDecimalDigit c = false) (hminus : c ≠ '-') (o : Option Nat) :
    c ∉ optionText o := by
  cases o with
  | none =>
    have hone : c ≠ '1' := by
      rintro rfl
      cases hdigit
    simp [optionText, hminus, hone]
  | some n => exact not_mem_decimal hdigit n

theorem optionText_eq_elim (o : Option Nat) : optionText o = o.elim ['-', '1'] (Nat.toDigits 10) := by
  cases o <;> rfl

/-! ### The characters of a line -/

/-- A character of parts joined by a separator is the separator or stands in a part. -/
theorem eq_or_mem_of_mem_intercalate {α : Type} {c x : α} {parts : List (List α)}
    (h : c ∈ [x].intercalate parts) : c = x ∨ ∃ part ∈ parts, c ∈ part := by
  induction parts with
  | nil => simp at h
  | cons part rest ih =>
    cases rest with
    | nil => exact .inr ⟨part, by simp, by simpa using h⟩
    | cons next rest =>
      rw [List.intercalate_cons_cons] at h
      simp only [List.mem_append, List.mem_singleton] at h
      obtain (hc | hc) | hc := h
      · exact .inr ⟨part, by simp, hc⟩
      · exact .inl hc
      · obtain hx | ⟨p, hp, hcp⟩ := ih hc
        · exact .inl hx
        · exact .inr ⟨p, List.mem_cons_of_mem _ hp, hcp⟩

/-- A field holds digits, or the minus sign of an absent value. -/
theorem not_mem_eventFields {c : Char} (hdigit : isDecimalDigit c = false) (hminus : c ≠ '-') (e : Event) :
    ∀ field ∈ eventFields e, c ∉ field := by
  simp [eventFields, not_mem_decimal hdigit, not_mem_optionText hdigit hminus]

/-- Every field of a record's event is present (42_event_record_decoder.md R151). -/
theorem eventFields_decodeRecord (r0 r1 r2 r3 : Byte) (idx : Nat) :
    ∀ field ∈ eventFields (decodeRecord r0 r1 r2 r3 idx), ∃ n, field = decimal n := by
  simp [eventFields, decodeRecord, optionText]

/-! ### The obligations on the printed form -/

/-- Settles O54: the separators written out. -/
theorem eventLineShowsTheFields : Obligations.EventLineShowsTheFields := by
  unfold Obligations.EventLineShowsTheFields
  intro e
  simp [eventLine, eventFields, List.intercalate_cons_cons, optionText_eq_elim, decimal]

/-- Settles O55: no field holds a blank, so splitting the body at blanks gives the fields, and each reads back. -/
theorem eventLineReadsBack : Obligations.EventLineReadsBack := by
  unfold Obligations.EventLineReadsBack
  intro e
  refine ⟨[' '].intercalate (eventFields e), rfl, fun hmem => ?_, ?_⟩
  · obtain hblank | ⟨field, hfield, hc⟩ := eq_or_mem_of_mem_intercalate hmem
    · exact absurd hblank (by decide)
    · exact not_mem_eventFields rfl (by decide) e field hfield hc
  · have hsplit := List.splitOn_intercalate ' ' (not_mem_eventFields rfl (by decide) e) (List.cons_ne_nil _ _)
    rw [readEventLine, hsplit]
    simp [eventFields]

/-- Settles O56: a character of the line is a blank, the newline, or a digit of a field, since no field is absent. -/
theorem recordLinesHaveNoSentinel : Obligations.RecordLinesHaveNoSentinel := by
  unfold Obligations.RecordLinesHaveNoSentinel
  intro r0 r1 r2 r3 idx hmem
  obtain hbody | hnewline := List.mem_append.1 hmem
  · obtain hblank | ⟨field, hfield, hc⟩ := eq_or_mem_of_mem_intercalate hbody
    · exact absurd hblank (by decide)
    · obtain ⟨n, rfl⟩ := eventFields_decodeRecord r0 r1 r2 r3 idx field hfield
      exact not_mem_decimal rfl n hc
  · exact absurd hnewline (by decide)

/-- Settles O57: an `Ev` entry adds its event and its line, a report neither. -/
theorem printedLogIsHeaderAndLines : Obligations.PrintedLogIsHeaderAndLines := by
  unfold Obligations.PrintedLogIsHeaderAndLines
  intro log
  refine congrArg (headerLine ++ ·) ?_
  induction log with
  | nil => rfl
  | cons entry log ih =>
    cases entry with
    | ev e => exact congrArg (eventLine e ++ ·) ih
    | err r => exact ih

end Sys2Proof.Machine
end

section
/-!
Requests as 30_encoding.md R79 writes them: reading back the hexadecimal bytes and words of a line, and its tokens.
-/

namespace Sys2Proof.Machine

/-! ### Hexadecimal digits -/

theorem hexValue_hexDigit {v : Nat} (h : v < 16) : hexValue (hexDigit v) = some v := by
  have hall : ∀ v < 16, hexValue (hexDigit v) = some v := by decide
  exact hall v h

theorem hexDigit_ne_blank {v : Nat} (h : v < 16) : hexDigit v ≠ ' ' := by
  have hall : ∀ v < 16, hexDigit v ≠ ' ' := by decide
  exact hall v h

/-- Digits written are read as the number they stand for, most significant first. -/
theorem readHex_map_hexDigit {vs : List Nat} (h : ∀ v ∈ vs, v < 16) :
    readHex (vs.map hexDigit) = some (vs.foldl (fun acc d => acc * 16 + d) 0) := by
  have hvalues : (vs.map hexDigit).mapM hexValue = some vs := by
    induction vs with
    | nil => rfl
    | cons v vs ih =>
      obtain ⟨hv, hvs⟩ := List.forall_mem_cons.1 h
      simp [hexValue_hexDigit hv, ih hvs]
  simp [readHex, hvalues]

theorem byteText_eq_map (b : Byte) : byteText b = [b.toNat / 16, b.toNat % 16].map hexDigit := rfl

theorem byteText_digits (b : Byte) : ∀ v ∈ [b.toNat / 16, b.toNat % 16], v < 16 := by
  simp only [List.forall_mem_cons, List.not_mem_nil, false_implies, implies_true, and_true]
  omega

@[simp] theorem readByte_byteText (b : Byte) : readByte (byteText b) = some b := by
  have hread : readHex (byteText b) = some b.toNat := by
    rw [byteText_eq_map, readHex_map_hexDigit (byteText_digits b)]
    simp only [List.foldl_cons, List.foldl_nil, Option.some.injEq]
    omega
  calc readByte (byteText b) = (readHex (byteText b)).map (BitVec.ofNat 8) := rfl
    _ = some b := by simp [hread]

/-- What `hexDigits` writes in front of `acc`, with fuel to spare: at least one digit, and the digits of the number. -/
theorem hexDigits_eq {fuel n : Nat} (h : n < fuel) (acc : List Char) :
    ∃ vs : List Nat, vs ≠ [] ∧ (∀ v ∈ vs, v < 16) ∧
    vs.foldl (fun acc d => acc * 16 + d) 0 = n ∧ hexDigits fuel n acc = vs.map hexDigit ++ acc := by
  induction fuel generalizing n acc with
  | zero => omega
  | succ fuel ih =>
    by_cases hn : n < 16
    · exact ⟨[n], by simp, by simpa using hn, by simp, by simp [hexDigits, hn]⟩
    · obtain ⟨vs, -, hvs, hvalue, hdigits⟩ := ih (n := n / 16) (by omega) (hexDigit (n % 16) :: acc)
      refine ⟨vs ++ [n % 16], by simp, ?_, ?_, ?_⟩
      · simp only [List.forall_mem_append, List.forall_mem_singleton]
        exact ⟨hvs, Nat.mod_lt n (by decide)⟩
      · rw [List.foldl_append, hvalue]
        exact Nat.div_add_mod' n 16
      · simp [hexDigits, hn, hdigits]

/-- A word is written as `0x` and at least one digit. -/
theorem wordText_eq (w : Nat) : ∃ vs : List Nat, vs ≠ [] ∧ (∀ v ∈ vs, v < 16) ∧
    vs.foldl (fun acc d => acc * 16 + d) 0 = w ∧ wordText w = '0' :: 'x' :: vs.map hexDigit := by
  obtain ⟨vs, hne, hvs, hvalue, hdigits⟩ := hexDigits_eq (Nat.lt_succ_self w) []
  exact ⟨vs, hne, hvs, hvalue, by simp [wordText, hdigits]⟩

@[simp] theorem readWord_wordText (w : Nat) : readWord (wordText w) = some w := by
  obtain ⟨vs, hne, hvs, hvalue, htext⟩ := wordText_eq w
  obtain ⟨d, ds, rfl⟩ := List.exists_cons_of_ne_nil hne
  calc readWord (wordText w) = readHex ((d :: ds).map hexDigit) := by rw [htext]; rfl
    _ = some w := by rw [readHex_map_hexDigit hvs, hvalue]

/-- A token that is a byte stands for itself in a byte list. -/
theorem readBytes_cons {tok : List Char} {b : Byte} (h : readByte tok = some b) (rest : List (List Char)) :
    readBytes (tok :: rest) = (readBytes rest).map (b :: ·) := by
  rw [readBytes.eq_def]
  simp only [h]

@[simp] theorem readBytes_map_byteText (bytes : List Byte) : readBytes (bytes.map byteText) = some bytes := by
  induction bytes with
  | nil => rfl
  | cons b bytes ih => rw [List.map_cons, readBytes_cons (readByte_byteText b), ih, Option.map_some]

/-! ### Tokens -/

/-- A part of a line that stays one token between blanks. -/
abbrev IsToken (tok : List Char) : Prop := tok ≠ [] ∧ ' ' ∉ tok

theorem isToken_map_hexDigit {vs : List Nat} (hne : vs ≠ []) (h : ∀ v ∈ vs, v < 16) : IsToken (vs.map hexDigit) :=
  ⟨by simpa using hne, fun hblank => by
    obtain ⟨v, hv, heq⟩ := List.mem_map.1 hblank
    exact hexDigit_ne_blank (h v hv) heq⟩

theorem isToken_byteText (b : Byte) : IsToken (byteText b) :=
  isToken_map_hexDigit (List.cons_ne_nil _ _) (byteText_digits b)

theorem isToken_wordText (w : Nat) : IsToken (wordText w) := by
  obtain ⟨vs, hne, hvs, -, htext⟩ := wordText_eq w
  rw [htext]
  exact ⟨List.cons_ne_nil _ _, by simpa using (isToken_map_hexDigit hne hvs).2⟩

theorem isToken_decimal (n : Nat) : IsToken (decimal n) := ⟨Nat.toDigits_ne_nil, not_mem_decimal rfl n⟩

theorem isToken_requestTokens (r : Request) : ∀ tok ∈ requestTokens r, IsToken tok := by
  have hbytes (bytes : List Byte) : ∀ tok ∈ bytes.map byteText, IsToken tok :=
    List.forall_mem_map.2 fun b _ => isToken_byteText b
  match r with
  | .command (.subframe bytes) | .command (.records bytes) | .call (.unpack5 bytes) | .call (.unpackSeq bytes) =>
    exact List.forall_mem_cons.2 ⟨by decide, hbytes bytes⟩
  | .call (.decodeWord w idx) =>
    exact List.forall_mem_cons.2 ⟨by decide,
      List.forall_mem_cons.2 ⟨isToken_wordText w, List.forall_mem_singleton.2 (isToken_decimal idx)⟩⟩
  | .call (.decodeRecord bytes idx) =>
    exact List.forall_mem_cons.2 ⟨by decide,
      List.forall_mem_append.2 ⟨hbytes bytes, List.forall_mem_singleton.2 (isToken_decimal idx)⟩⟩

/-- Tokens joined by single blanks are the tokens of the line. -/
theorem tokens_intercalate {toks : List (List Char)} (hne : toks ≠ []) (h : ∀ tok ∈ toks, IsToken tok) :
    tokens ([' '].intercalate toks) = toks := by
  rw [tokens, List.splitOn_intercalate ' ' (fun tok htok => (h tok htok).2) hne, List.filter_eq_self]
  exact fun tok htok => decide_eq_true (h tok htok).1

theorem tokens_spell (r : Request) : tokens (spell r) = requestTokens r := by
  have hne : requestTokens r ≠ [] := by
    match r with
    | .command (.subframe _) | .command (.records _) | .call (.unpack5 _) | .call (.unpackSeq _)
    | .call (.decodeWord _ _) | .call (.decodeRecord _ _) => exact List.cons_ne_nil _ _
  exact tokens_intercalate hne (isToken_requestTokens r)

/-! ### The obligation -/

/-- Settles O58: the line's tokens are the request's, the first names its kind, and each other one reads back. -/
theorem spellingReadsBack : Obligations.SpellingReadsBack := by
  unfold Obligations.SpellingReadsBack
  intro r
  rw [readRequest, tokens_spell]
  match r with
  | .command (.subframe _) | .command (.records _) | .call (.unpack5 _) | .call (.unpackSeq _)
  | .call (.decodeWord _ _) | .call (.decodeRecord _ _) => simp [requestTokens]

end Sys2Proof.Machine
end

section
/-!
U1 as arithmetic: the two words of a chunk and their inverse as sums and quotients (40_bit_unpacker.md R100, R101), and
what executing UNPACK5 and UNPACK_SEQ answers.
-/

namespace Sys2Proof.Machine

/-! ### Masks, slices and the words of a chunk as arithmetic -/

theorem land_byteMask (v : Nat) : v &&& 0xFF = v % 2 ^ 8 := Nat.and_two_pow_sub_one_eq_mod v 8

theorem land_nibbleMask (v : Nat) : v &&& 0x0F = v % 2 ^ 4 := Nat.and_two_pow_sub_one_eq_mod v 4

theorem bits_eq_quotient (v hi lo : Nat) : bits v hi lo = v / 2 ^ lo % 2 ^ (hi - lo + 1) := by
  rw [bits, Nat.shiftRight_eq_div_pow]

/-- The slice `[7:0]` of a byte is the byte. -/
theorem bits_byte (b : Byte) : bits b.toNat 7 0 = b.toNat := Nat.mod_eq_of_lt b.isLt

/-- The first word: the low nibble of `b2` above `b1` above `b0`. -/
theorem event1_eq_sum (b0 b1 b2 : Byte) :
    event1 b0 b1 b2 = 2 ^ 16 * (b2.toNat % 2 ^ 4) + (2 ^ 8 * b1.toNat + b0.toNat) := by
  rw [event1, land_nibbleMask, Nat.lor_assoc, shiftLeft_lor b0.isLt, shiftLeft_lor (by omega)]

/-- The second word: `b4` above `b3` above the high nibble of `b2`. -/
theorem event2_eq_sum (b2 b3 b4 : Byte) :
    event2 b2 b3 b4 = 2 ^ 12 * b4.toNat + (2 ^ 4 * b3.toNat + b2.toNat / 2 ^ 4) := by
  rw [event2, Nat.shiftRight_eq_div_pow, Nat.lor_assoc, shiftLeft_lor (b := b2.toNat / 2 ^ 4) (by omega),
    shiftLeft_lor (by omega)]

theorem event1_lt (b0 b1 b2 : Byte) : event1 b0 b1 b2 < 2 ^ 20 := by
  rw [event1_eq_sum]
  omega

theorem event2_lt (b2 b3 b4 : Byte) : event2 b2 b3 b4 < 2 ^ 20 := by
  rw [event2_eq_sum]
  omega

/-- R100's bit-slice form of the first word: `{b2[3:0], b1[7:0], b0[7:0]}`. -/
theorem event1_eq_slices (b0 b1 b2 : Byte) :
    event1 b0 b1 b2 = (((bits b2.toNat 3 0 <<< 8) ||| bits b1.toNat 7 0) <<< 8) ||| bits b0.toNat 7 0 := by
  rw [bits_byte, bits_byte, shiftLeft_lor b0.isLt, shiftLeft_lor b1.isLt, event1_eq_sum, bits_eq_quotient]
  omega

/-- R100's bit-slice form of the second word: `{b4[7:0], b3[7:0], b2[7:4]}`. -/
theorem event2_eq_slices (b2 b3 b4 : Byte) :
    event2 b2 b3 b4 = (((bits b4.toNat 7 0 <<< 8) ||| bits b3.toNat 7 0) <<< 4) ||| bits b2.toNat 7 4 := by
  have hnibble : bits b2.toNat 7 4 < 2 ^ 4 := Nat.mod_lt _ (by decide)
  rw [bits_byte, bits_byte, shiftLeft_lor hnibble, shiftLeft_lor b3.isLt, event2_eq_sum, bits_eq_quotient]
  omega

/-- The words of a chunk are the low and the high half of its little-endian number (20_memory.md R45). -/
theorem event1_eq_bits_chunkNumber (b0 b1 b2 b3 b4 : Byte) :
    event1 b0 b1 b2 = bits (chunkNumber b0 b1 b2 b3 b4) 19 0 := by
  rw [event1_eq_sum, bits_eq_quotient, chunkNumber]
  omega

theorem event2_eq_bits_chunkNumber (b0 b1 b2 b3 b4 : Byte) :
    event2 b2 b3 b4 = bits (chunkNumber b0 b1 b2 b3 b4) 39 20 := by
  rw [event2_eq_sum, bits_eq_quotient, chunkNumber]
  omega

/-! ### The inverse of UNPACK5 -/

/-- A byte joined from the low nibbles of two numbers, as the inverse joins `b2` from the two words. -/
theorem nibbles_eq_sum (lo hi : Nat) : (lo &&& 0x0F) ||| ((hi &&& 0x0F) <<< 4) = 2 ^ 4 * (hi % 2 ^ 4) + lo % 2 ^ 4 := by
  rw [Nat.lor_comm, land_nibbleMask, land_nibbleMask, shiftLeft_lor (Nat.mod_lt _ (by decide))]

/-- Each byte of a chunk by the rule's inverse formula, from the chunk's two words. -/
theorem bytes_of_words (b0 b1 b2 b3 b4 : Byte) :
    let e1 := event1 b0 b1 b2
    let e2 := event2 b2 b3 b4
    b0.toNat = e1 &&& 0xFF ∧ b1.toNat = (e1 >>> 8) &&& 0xFF ∧
    b2.toNat = ((e1 >>> 16) &&& 0x0F) ||| ((e2 &&& 0x0F) <<< 4) ∧
    b3.toNat = (e2 >>> 4) &&& 0xFF ∧ b4.toNat = (e2 >>> 12) &&& 0xFF := by
  simp only [nibbles_eq_sum, land_byteMask, Nat.shiftRight_eq_div_pow, event1_eq_sum, event2_eq_sum]
  omega

/-- The inverse gives back the chunk whose words it is given. -/
theorem repack_words (c : Chunk40) : repack (event1 c.b0 c.b1 c.b2) (event2 c.b2 c.b3 c.b4) = c := by
  obtain ⟨b0, b1, b2, b3, b4⟩ := c
  obtain ⟨h0, h1, h2, h3, h4⟩ := bytes_of_words b0 b1 b2 b3 b4
  simp only [repack, ← h0, ← h1, ← h2, ← h3, ← h4, BitVec.ofNat_toNat, BitVec.setWidth_eq]

/-- Two 20-bit words are the words of the chunk the inverse gives. -/
theorem words_repack {e1 e2 : Nat} (h1 : e1 < 2 ^ 20) (h2 : e2 < 2 ^ 20) :
    event1 (repack e1 e2).b0 (repack e1 e2).b1 (repack e1 e2).b2 = e1 ∧
    event2 (repack e1 e2).b2 (repack e1 e2).b3 (repack e1 e2).b4 = e2 := by
  simp only [event1_eq_sum, event2_eq_sum, repack, nibbles_eq_sum, land_byteMask, BitVec.toNat_ofNat,
    Nat.shiftRight_eq_div_pow]
  omega

/-! ### Executing UNPACK5 and UNPACK_SEQ -/

/-- UNPACK5 writes the two words to the output fields and nothing else. -/
theorem exec_unpack5 (b0 b1 b2 b3 b4 : Byte) (s : State) :
    exec (.unpack5 b0 b1 b2 b3 b4) s = .next (s.setOut (.words (event1 b0 b1 b2) (event2 b2 b3 b4))) := rfl

theorem exec_unpackSeq_whole {S : List Byte} (h : S.length % 5 = 0) (s : State) :
    exec (.unpackSeq S) s = .next (s.setOut (.wordSeq ((chunksOf S).flatMap chunkWords))) := by
  simp [exec, execUnpackSeq, unpackSeq_whole h]

theorem exec_unpackSeq_partial {S : List Byte} (h : S.length % 5 ≠ 0) (s : State) :
    exec (.unpackSeq S) s = .next ((s.raise ⟨.chunkLength, S.length⟩).setOut (.error ⟨.chunkLength, S.length⟩)) := by
  simp [exec, execUnpackSeq, unpackSeq_partial h]

/-- Two words per whole chunk of the sequence (R102, R104). -/
theorem chunkWords_chunksOf_length (S : List Byte) :
    ((chunksOf S).flatMap chunkWords).length = 2 * (S.length / 5) := by
  rw [chunkWords_length, chunksOf_length]

theorem lt_of_mem_chunkWords {cs : List Chunk40} {w : Nat} (h : w ∈ cs.flatMap chunkWords) : w < 2 ^ 20 := by
  obtain ⟨c, -, hw⟩ := List.mem_flatMap.1 h
  obtain rfl | rfl : w = event1 c.b0 c.b1 c.b2 ∨ w = event2 c.b2 c.b3 c.b4 := by simpa [chunkWords] using hw
  · exact event1_lt c.b0 c.b1 c.b2
  · exact event2_lt c.b2 c.b3 c.b4

/-! ### The obligations -/

/-- Settles O8: the formulas are the model's own, and each bit-slice form is the same sum of bytes and nibbles. -/
theorem unpack5GivesTheTwoWords : Obligations.Unpack5GivesTheTwoWords := by
  unfold Obligations.Unpack5GivesTheTwoWords
  intro b0 b1 b2 b3 b4 s
  exact ⟨event1 b0 b1 b2, event2 b2 b3 b4, exec_unpack5 b0 b1 b2 b3 b4 s, rfl, rfl, event1_eq_slices b0 b1 b2,
    event2_eq_slices b2 b3 b4⟩

/-- Settles O9: `repack` is the inverse on both sides, so it gives the one chunk a pair of words comes from. -/
theorem unpack5IsABijection : Obligations.Unpack5IsABijection := by
  unfold Obligations.Unpack5IsABijection
  constructor
  · intro b0 b1 b2 b3 b4
    obtain ⟨h0, h1, h2, h3, h4⟩ := bytes_of_words b0 b1 b2 b3 b4
    exact ⟨event1_lt b0 b1 b2, event2_lt b2 b3 b4, h0, h1, h2, h3, h4, repack_words ⟨b0, b1, b2, b3, b4⟩⟩
  · intro e1 e2 he1 he2
    refine ⟨repack e1 e2, words_repack he1 he2, ?_⟩
    rintro c ⟨rfl, rfl⟩
    exact (repack_words c).symm

/-- Settles O10: the low nibble of `b2` ends the number's low 20 bits and its high nibble begins the rest. -/
theorem chunkIsLittleEndian : Obligations.ChunkIsLittleEndian := by
  unfold Obligations.ChunkIsLittleEndian
  intro b0 b1 b2 b3 b4 s
  rw [exec_unpack5, event1_eq_bits_chunkNumber b0 b1 b2 b3 b4, event2_eq_bits_chunkNumber b0 b1 b2 b3 b4]
  rfl

/-- Settles O11: a whole sequence unpacks chunk by chunk, chunk `k` being the bytes from `5k` and its words standing at
`2k`; any other sequence is an error in place of words. -/
theorem unpackSeqKeepsChunkOrder : Obligations.UnpackSeqKeepsChunkOrder := by
  unfold Obligations.UnpackSeqKeepsChunkOrder
  refine fun S s => ⟨fun h => ⟨_, exec_unpackSeq_whole h s, ?_, fun k hk => ?_⟩, fun h => exec_unpackSeq_partial h s⟩
  · rw [chunkWords_chunksOf_length]
    omega
  · obtain ⟨c, hc, hread⟩ := chunksOf_getElem? S k hk
    exact ⟨c.b0, c.b1, c.b2, c.b3, c.b4, hread, chunkWords_getElem? _ k c hc⟩

/-- Settles O12: 495 bytes are 99 whole chunks, of two 20-bit words each. -/
theorem subframeUnpacksTo198Words : Obligations.SubframeUnpacksTo198Words := by
  unfold Obligations.SubframeUnpacksTo198Words
  intro S s hlength
  refine ⟨_, exec_unpackSeq_whole (by omega) s, ?_, fun w hw => lt_of_mem_chunkWords hw⟩
  rw [chunkWords_chunksOf_length, hlength]

end Sys2Proof.Machine
end

section
/-!
U2 and the unit operations: what DECODE_WORD and the decoder do with a word of each variant and with a word beyond 20
bits (41_event_word_decoder.md R120 to R128), and what a direct call of a unit can do to the state (R129).
-/

namespace Sys2Proof

open Machine

/-! ### The tags of a 20-bit word -/

/-- The two bits R120 selects by are the whole type code of a 20-bit word. -/
theorem bits_code {w : Nat} (hw : w < 2 ^ 20) : bits w 19 18 = typeCode w := by
  have hle := typeCode_le_three hw
  exact Nat.mod_eq_of_lt (show typeCode w < 2 ^ 2 by omega)

/-- The three top bits of a 20-bit word are the type code and, below it, the add bit. -/
theorem bits_codeAdd {w : Nat} (hw : w < 2 ^ 20) : bits w 19 17 = 2 * typeCode w + addBit w := by
  simp only [bits_eq_quotient, typeCode, addBit, Nat.and_one_is_mod, Nat.shiftRight_eq_div_pow]
  omega

theorem tags_noise {w : Nat} (hw : w < 2 ^ 20) (h : bits w 19 17 = 0b110) : Variant.noise.Tags w := by
  rw [bits_codeAdd hw] at h
  obtain ha | ha := addBit_eq_zero_or_one w
  · exact ⟨by omega, ha⟩
  · omega

theorem tags_status {w : Nat} (hw : w < 2 ^ 20) (h : bits w 19 17 = 0b111) : Variant.status.Tags w := by
  rw [bits_codeAdd hw] at h
  obtain ha | ha := addBit_eq_zero_or_one w
  · omega
  · exact ⟨by omega, ha⟩

/-- Every 20-bit word carries the tags of some variant (R72). -/
theorem exists_tags {w : Nat} (hw : w < 2 ^ 20) : ∃ v : Variant, v.Tags w := by
  obtain ⟨hc, -⟩ | ⟨hc, -⟩ | ⟨hc, -⟩ | ⟨hc, ha, -⟩ | ⟨hc, ha, -⟩ := decodeWord_cases 0 hw
  · exact ⟨.data, hc⟩
  · exact ⟨.sweepTrig, hc⟩
  · exact ⟨.sweepEvt, hc⟩
  · exact ⟨.noise, hc, ha⟩
  · exact ⟨.status, hc, ha⟩

theorem typeCode_gt_three {w : Nat} (hw : 2 ^ 20 ≤ w) : 3 < typeCode w := by
  simp only [typeCode, Nat.shiftRight_eq_div_pow]
  omega

/-! ### The decoder, the execution and DECODE_WORD on a word of each kind -/

/-- DECODE_WORD's two-level selection gives a tagged word its variant's event (R120). -/
theorem Variant.Tags.decodeWord {v : Variant} {w : Nat} (h : v.Tags w) (idx : Nat) :
    Machine.decodeWord w idx = .ok (v.event w idx) := by
  cases v with
  | data => exact decodeWord_of_typeCode_zero idx h
  | sweepTrig => exact decodeWord_of_typeCode_one idx h
  | sweepEvt => exact decodeWord_of_typeCode_two idx h
  | noise => exact decodeWord_of_addBit_zero idx h.1 h.2
  | status => exact decodeWord_of_addBit_one idx h.1 h.2

/-- A tagged word decodes to its variant's row, which gives the variant's event and writes nothing else. -/
theorem Variant.Tags.decode_exec {v : Variant} {w : Nat} (h : v.Tags w) (idx : Nat) (s : State) :
    decode (.call (.decodeWord w idx)) = .ok (v.instr w idx) ∧
    exec (v.instr w idx) s = .next { s with out := .event (v.event w idx) } :=
  ⟨v.decode_encode (h.wellFormed idx), (v.decodes_and_executes s ⟨h, rfl⟩).2⟩

/-- The guard on the code stops every word beyond 20 bits (R121). -/
theorem decodeWord_of_wide {w : Nat} (hw : 2 ^ 20 ≤ w) (idx : Nat) :
    decodeWord w idx = .error ⟨.unreachableCode, w⟩ := guardCode_of_typeCode_gt (typeCode_gt_three hw) _

/-- The only error of DECODE_WORD is the one of a word beyond 20 bits: the guard on the add bit raises none. -/
theorem decodeWord_error {w idx : Nat} {e : Raised} (h : decodeWord w idx = .error e) :
    2 ^ 20 ≤ w ∧ e = ⟨.unreachableCode, w⟩ := by
  by_cases hw : w < 2 ^ 20
  · obtain ⟨v, hv⟩ := exists_tags hw
    rw [hv.decodeWord idx] at h
    cases h
  · have hwide := Nat.le_of_not_lt hw
    rw [decodeWord_of_wide hwide] at h
    cases h
    exact ⟨hwide, rfl⟩

/-- Whatever row a word beyond 20 bits is executed under, it raises UnreachableCode (log 7). -/
theorem Variant.exec_instr_of_wide (v : Variant) {w : Nat} (hw : 2 ^ 20 ≤ w) (idx : Nat) (s : State) :
    exec (v.instr w idx) s =
      .next ((s.raise ⟨.unreachableCode, w⟩).setOut (.error ⟨.unreachableCode, w⟩)) := by
  rw [v.exec_instr, guardCode_of_typeCode_gt (typeCode_gt_three hw), State.complete_error]

theorem Variant.event_idx (v : Variant) (w idx : Nat) : (v.event w idx).idx = idx := by
  cases v <;> rfl

/-- The two sweep events of words with the same low 18 bits differ only in the code (R124). -/
theorem sweepTrigEvent_eq_sweepEvtEvent {w w' : Nat} (h : w % 2 ^ 18 = w' % 2 ^ 18) (idx : Nat) :
    sweepTrigEvent w idx = { sweepEvtEvent w' idx with code := 1 } := by
  have htime : bitsMsb w 2 8 = bitsMsb w' 2 8 := by
    simp only [bitsMsb, Nat.shiftRight_eq_div_pow]
    omega
  have hdata : bitsMsb w 8 20 = bitsMsb w' 8 20 := by
    simp only [bitsMsb, Nat.shiftRight_eq_div_pow]
    omega
  rw [sweepTrigEvent_eq_slices, sweepEvtEvent_eq_slices, htime, hdata]

/-! ### The unit operations -/

theorem guardCode_error {w : Nat} {ev : Event} {e : Raised} (h : guardCode w (.ok ev) = .error e) :
    e.name = .unreachableCode := by
  unfold guardCode at h
  split at h <;> cases h
  rfl

theorem unpackSeq_error {S : List Byte} {e : Raised} (h : unpackSeq S = .error e) : e.name = .chunkLength := by
  by_cases hlen : S.length % 5 = 0
  · rw [unpackSeq_whole hlen] at h
    cases h
  · rw [unpackSeq_partial hlen] at h
    cases h
    rfl

/-- The instruction completes with a result that no state has a part in, and its only errors are those of the chunk
length and of the type code (R103, R121). -/
def Instr.Completes (i : Instr) : Prop :=
  ∃ (α : Type) (result : Except Raised α) (field : α → Output), (∀ s, exec i s = s.complete result field) ∧
    ∀ e, result = .error e → e.name = .chunkLength ∨ e.name = .unreachableCode

theorem Variant.completes (v : Variant) (w idx : Nat) : (v.instr w idx).Completes :=
  ⟨_, _, _, v.exec_instr w idx, fun _ he => .inr (guardCode_error he)⟩

/-- Every unit operation completes in this way. -/
theorem completes_of_unitOperation {i : Instr} (h : isHostCommand (encode i) = false) : i.Completes := by
  cases i with
  | unpack5 b0 b1 b2 b3 b4 =>
    exact ⟨_, .ok (.words (event1 b0 b1 b2) (event2 b2 b3 b4)), id, fun _ => rfl, nofun⟩
  | unpackSeq bytes => exact ⟨_, _, _, fun _ => rfl, fun _ he => .inl (unpackSeq_error he)⟩
  | evwData w idx => exact Variant.completes .data w idx
  | evwSweepTrig w idx => exact Variant.completes .sweepTrig w idx
  | evwSweepEvt w idx => exact Variant.completes .sweepEvt w idx
  | evwNoise w idx => exact Variant.completes .noise w idx
  | evwStatus w idx => exact Variant.completes .status w idx
  | decodeRecord r0 r1 r2 r3 idx => exact ⟨_, .ok (decodeRecord r0 r1 r2 r3 idx), .event, fun _ => rfl, nofun⟩
  | subframe bytes => cases h
  | records bytes => cases h

/-- Completing a unit operation writes the output field, and before it the one report of an error (R202, log 6). -/
theorem complete_cases {α : Type} {result : Except Raised α} {field : α → Output} {s t : State}
    (h : s.complete result field = .next t) :
    (∃ a, result = .ok a ∧ t = s.setOut (field a)) ∨
    (∃ e, result = .error e ∧ t = (s.raise e).setOut (.error e)) := by
  cases result with
  | ok a =>
    cases h
    exact .inl ⟨a, rfl, rfl⟩
  | error e =>
    cases h
    exact .inr ⟨e, rfl, rfl⟩

/-! ### No report of the add bit -/

/-- Every UnreachableAdd report in the log of `t` stood in the log of `s` already. -/
def Machine.State.NoNewAddReport (s t : State) : Prop :=
  ∀ r ∈ reportsOf t.log, r.name = .unreachableAdd → r ∈ reportsOf s.log

theorem noNewAddReport_raise {s t : State} {e : Raised} (h : s.NoNewAddReport t) (he : e.name ≠ .unreachableAdd) :
    s.NoNewAddReport (t.raise e) := by
  intro r hr hname
  rw [State.raise_log, reportsOf, List.filterMap_append, List.mem_append] at hr
  obtain hr | hr := hr
  · exact h r hr hname
  · cases List.mem_singleton.1 hr
    exact absurd hname he

theorem noNewAddReport_emit {s t : State} (h : s.NoNewAddReport t) (ev : Event) : s.NoNewAddReport (t.emit ev) := by
  have hlog : reportsOf (t.emit ev).log = reportsOf t.log := by simp [reportsOf]
  rwa [State.NoNewAddReport, hlog]

theorem noNewAddReport_deliver {s t : State} (h : s.NoNewAddReport t) (ev : Event) :
    s.NoNewAddReport (t.deliver ev).state := by
  obtain ⟨-, hd⟩ | ⟨-, hd⟩ := t.deliver_cases ev <;> rw [hd]
  · exact noNewAddReport_emit h ev
  · exact noNewAddReport_raise h nofun

theorem noNewAddReport_skipEvent {s t : State} {e : Raised} (h : s.NoNewAddReport t)
    (he : e.name ≠ .unreachableAdd) : s.NoNewAddReport (t.skipEvent e) := by
  unfold State.skipEvent
  split <;> exact noNewAddReport_raise h he

theorem noNewAddReport_wordUnit {s t : State} (h : s.NoNewAddReport t) (w : Nat) :
    s.NoNewAddReport (wordUnit w t).state := by
  unfold wordUnit
  cases hd : decodeWord w t.seq with
  | error e =>
    obtain ⟨-, rfl⟩ := decodeWord_error hd
    exact noNewAddReport_skipEvent h nofun
  | ok ev => exact noNewAddReport_deliver h ev

/-- What every unit keeps, however it ends, the loop keeps. -/
theorem forEach_keeps_state {α : Type} {unit : α → State → Progress} {P : State → Prop}
    (hunit : ∀ a s, P s → P (unit a s).state) (as : List α) {s : State} (hs : P s) : P (forEach unit as s) :=
  forEach_keeps (fun a _ u v hu huv => by simpa [huv] using hunit a u hu)
    (fun a _ u v hu huv => by simpa [huv] using hunit a u hu) hs

/-- The reports an instruction appends are of other names: those of its lengths, its words' type codes and its
indices. -/
theorem exec_noNewAddReport {i : Instr} {s t : State} (h : exec i s = .next t) : s.NoNewAddReport t := by
  have hrefl : s.NoNewAddReport s := fun r hr _ => hr
  cases hhost : isHostCommand (encode i) with
  | false =>
    obtain ⟨α, result, field, hi, herr⟩ := completes_of_unitOperation hhost
    rw [hi] at h
    obtain ⟨a, -, rfl⟩ | ⟨e, he, rfl⟩ := complete_cases h
    · exact hrefl
    · have hname : e.name ≠ .unreachableAdd := by
        obtain hn | hn := herr e he <;> simp [hn]
      exact noNewAddReport_raise hrefl hname
  | true =>
    cases i with
    | subframe bytes =>
      by_cases hlen : bytes.length = 495
      · rw [exec_subframe_whole hlen] at h
        cases h
        exact forEach_keeps_state (P := s.NoNewAddReport) (fun w u hu => noNewAddReport_wordUnit hu w) _ hrefl
      · rw [exec_subframe_wrongLength hlen] at h
        cases h
        exact noNewAddReport_raise hrefl nofun
    | records bytes =>
      by_cases hlen : bytes.length % 4 = 0
      · rw [exec_records_whole hlen] at h
        cases h
        exact forEach_keeps_state (P := s.NoNewAddReport) (fun _ u hu => noNewAddReport_deliver hu _) _ hrefl
      · rw [exec_records_partial hlen] at h
        cases h
        exact noNewAddReport_raise hrefl nofun
    | _ => cases hhost

/-! ### The obligations -/

/-- Settles O13: the word carries the tags of DATA. -/
theorem dataWordGivesItsEvent : Obligations.DataWordGivesItsEvent := by
  unfold Obligations.DataWordGivesItsEvent
  intro w idx s hw h
  have htags : Variant.data.Tags w := (bits_code hw).symm.trans h
  exact htags.decode_exec idx s

/-- Settles O14: the word carries the tags of SWEEP_TRIG. -/
theorem sweepTrigWordGivesItsEvent : Obligations.SweepTrigWordGivesItsEvent := by
  unfold Obligations.SweepTrigWordGivesItsEvent
  intro w idx s hw h
  have htags : Variant.sweepTrig.Tags w := (bits_code hw).symm.trans h
  exact htags.decode_exec idx s

/-- Settles O15: the word carries the tags of SWEEP_EVT; and a code set above the low 18 bits leaves them as they
are. -/
theorem sweepEvtWordGivesItsEvent : Obligations.SweepEvtWordGivesItsEvent := by
  unfold Obligations.SweepEvtWordGivesItsEvent
  refine ⟨fun w idx s hw h => ?_, fun low idx hlow => ?_⟩
  · have htags : Variant.sweepEvt.Tags w := (bits_code hw).symm.trans h
    exact htags.decode_exec idx s
  · have hevt : typeCode (0x80000 + low) = 2 := by
      simp only [typeCode, Nat.shiftRight_eq_div_pow]
      omega
    have htrig : typeCode (0x40000 + low) = 1 := by
      simp only [typeCode, Nat.shiftRight_eq_div_pow]
      omega
    refine ⟨_, decodeWord_of_typeCode_two idx hevt, ?_, rfl⟩
    rw [decodeWord_of_typeCode_one idx htrig, sweepTrigEvent_eq_sweepEvtEvent (w' := 0x80000 + low) (by omega)]

/-- Settles O16: the word carries the tags of NOISE. -/
theorem noiseWordGivesItsEvent : Obligations.NoiseWordGivesItsEvent := by
  unfold Obligations.NoiseWordGivesItsEvent
  exact fun w idx s hw h => (tags_noise hw h).decode_exec idx s

/-- Settles O17: the word carries the tags of STATUS. -/
theorem statusWordGivesItsEvent : Obligations.StatusWordGivesItsEvent := by
  unfold Obligations.StatusWordGivesItsEvent
  exact fun w idx s hw h => (tags_status hw h).decode_exec idx s

/-- Settles O18: every word selects a row, and the guard on the code stands before each row's event; a smaller word has
a variant's event in place of an error. -/
theorem wideWordRaisesUnreachableCode : Obligations.WideWordRaisesUnreachableCode := by
  unfold Obligations.WideWordRaisesUnreachableCode
  refine ⟨fun w idx s hw => ?_, fun w idx => ⟨fun h => (decodeWord_error h).1, fun hw => decodeWord_of_wide hw idx⟩⟩
  obtain ⟨v, -, hdecode⟩ := decode_word w idx
  exact ⟨v.instr w idx, hdecode, v.exec_instr_of_wide hw idx s⟩

/-- Settles O19: DECODE_WORD's one error has another name, and so has every report an instruction appends. -/
theorem addGuardIsDead : Obligations.AddGuardIsDead := by
  unfold Obligations.AddGuardIsDead
  refine ⟨fun w idx info h => ?_, fun i s t h => exec_noNewAddReport h⟩
  cases (decodeWord_error h).2

/-- Settles O21: both selections go by the tags of the word. -/
theorem decodeWordIsItsVariants : Obligations.DecodeWordIsItsVariants := by
  unfold Obligations.DecodeWordIsItsVariants
  intro w idx s hw
  obtain ⟨v, htags⟩ := exists_tags hw
  obtain ⟨hdecode, hexec⟩ := htags.decode_exec idx s
  exact ⟨_, _, hdecode, htags.wellFormed idx, htags.decodeWord idx, hexec, v.event_idx w idx⟩

/-- Settles O50: a unit operation completes with its result or raises its error, and both write only that. -/
theorem unitOperationsWriteNoState : Obligations.UnitOperationsWriteNoState := by
  unfold Obligations.UnitOperationsWriteNoState
  intro i s t hunit h
  obtain ⟨α, result, field, hi, -⟩ := completes_of_unitOperation hunit
  rw [hi] at h
  obtain ⟨a, -, rfl⟩ | ⟨e, -, rfl⟩ := complete_cases h
  · exact .inl rfl
  · exact .inr ⟨e, rfl⟩

/-- Settles O51: the result is completed in either state, and it alone fixes the output field. -/
theorem unitResultsDependOnOperandsOnly : Obligations.UnitResultsDependOnOperandsOnly := by
  unfold Obligations.UnitResultsDependOnOperandsOnly
  intro i s s' t t' hunit h h'
  obtain ⟨α, result, field, hi, -⟩ := completes_of_unitOperation hunit
  rw [hi] at h h'
  cases result <;> cases h <;> cases h' <;> rfl

end Sys2Proof
end

section
/-!
The event-record decoder of 42_event_record_decoder.md: the bias as the inversion of a top bit, the range of the raw
data, and the fields of a record by division.
-/

namespace Sys2Proof

open Machine

/-- Adding `2 ^ k` modulo `2 ^ (k + 1)` carries out of bit `k` at most, so it inverts that bit and keeps the others
(R152's second form). -/
theorem xor_two_pow_eq_add_mod {n k : Nat} (h : n < 2 ^ (k + 1)) : n ^^^ 2 ^ k = (n + 2 ^ k) % 2 ^ (k + 1) := by
  refine Nat.eq_of_testBit_eq fun i => ?_
  rw [Nat.testBit_xor, Nat.testBit_two_pow, Nat.testBit_mod_two_pow, Nat.add_comm n]
  obtain hi | rfl | hi := lt_trichotomy i k
  · simp [Nat.testBit_two_pow_add_gt hi, hi.ne', Nat.lt_succ_of_lt hi]
  · simp [Nat.testBit_two_pow_add_eq]
  · have hn : n.testBit i = false := Nat.testBit_lt_two_pow (h.trans_le (Nat.pow_le_pow_right two_pos hi))
    simp [hn, hi.ne, Nat.not_lt.2 (Nat.succ_le_of_lt hi)]

/-- Two bytes hold 16 bits. -/
theorem dataRaw_lt (r2 r3 : Byte) : dataRaw r2 r3 < 2 ^ 16 := by
  have h2 : r2.toNat < 2 ^ 8 := r2.isLt
  have h3 : r3.toNat < 2 ^ 8 := r3.isLt
  rw [dataRaw, shiftLeft_lor h3]
  omega

/-- The low five bits of `r0` fix `det_id`; its upper three reach `code` and `add` alone (R151). -/
theorem decodeRecord_eq_with_code_add {r0 r0' : Byte} (h : r0.toNat % 32 = r0'.toNat % 32) (r1 r2 r3 : Byte)
    (idx : Nat) : decodeRecord r0' r1 r2 r3 idx =
      { decodeRecord r0 r1 r2 r3 idx with code := r0'.toNat / 64, add := some (r0'.toNat / 32 % 2) } := by
  have hr0' : r0'.toNat < 2 ^ 8 := r0'.isLt
  have hcode : r0'.toNat / 64 % 4 = r0'.toNat / 64 := by omega
  simp only [decodeRecord_eq_quotients, Nat.reducePow, hcode, h]

/-- Settles O25: the three fields are present by definition, and the fields of the second record are those of the first
but for `code` and `add`. -/
theorem recordLayoutIgnoresTheCode : Obligations.RecordLayoutIgnoresTheCode := by
  unfold Obligations.RecordLayoutIgnoresTheCode
  exact fun _ _ r1 r2 r3 idx h => ⟨rfl, rfl, rfl, decodeRecord_eq_with_code_add h r1 r2 r3 idx⟩

/-- Settles O26: the raw data has 16 bits, so the bias 2^15 inverts the top one. -/
theorem biasInvertsBitFifteen : Obligations.BiasInvertsBitFifteen := by
  unfold Obligations.BiasInvertsBitFifteen
  intro r0 r1 r2 r3 idx
  exact ⟨dataRaw_lt r2 r3, rfl, (xor_two_pow_eq_add_mod (dataRaw_lt r2 r3)).symm⟩

/-- Settles O24: a four-byte record decodes to its row, whose execution writes the event of R150's formulas to the
output field. -/
theorem recordGivesItsEvent : Obligations.RecordGivesItsEvent := by
  unfold Obligations.RecordGivesItsEvent
  exact fun r0 r1 r2 r3 idx s => ⟨Laws.RoundTrip.decodeRecord r0 r1 r2 r3 idx rfl, rfl⟩

end Sys2Proof
end

section
/-!
The loop of a host command as a list of events (43_stream_sequencer.md R171 to R175): each unit delivers one event under
the running index, the events that fit are emitted in order, and the first index that does not fit ends the command. The
events are listed under index 0 and numbered by the model's own `renumber` (R177).
-/

namespace Sys2Proof.Machine

/-! ### The events and the reports of a log -/

@[simp] theorem eventsOf_append (l l' : List Entry) : eventsOf (l ++ l') = eventsOf l ++ eventsOf l' :=
  List.filterMap_append ..

@[simp] theorem reportsOf_append (l l' : List Entry) : reportsOf (l ++ l') = reportsOf l ++ reportsOf l' :=
  List.filterMap_append ..

@[simp] theorem eventsOf_map_ev (evs : List Event) : eventsOf (evs.map .ev) = evs := by
  simp [eventsOf, List.filterMap_map]

@[simp] theorem reportsOf_map_ev (evs : List Event) : reportsOf (evs.map .ev) = [] := by
  simp [reportsOf]

@[simp] theorem eventsOf_err (r : ErrorReport) : eventsOf [.err r] = [] := rfl

@[simp] theorem reportsOf_err (r : ErrorReport) : reportsOf [.err r] = [r] := rfl

/-! ### Renumbering -/

@[simp] theorem renumber_nil (n : Nat) : renumber n [] = [] := rfl

@[simp] theorem renumber_cons (n : Nat) (e : Event) (evs : List Event) :
    renumber n (e :: evs) = { e with idx := n } :: renumber (n + 1) evs := by
  simp [renumber, List.mapIdx_cons, Nat.add_assoc, Nat.add_comm 1]

@[simp] theorem renumber_length (n : Nat) (evs : List Event) : (renumber n evs).length = evs.length :=
  List.length_mapIdx

theorem renumber_append (n : Nat) (evs evs' : List Event) :
    renumber n (evs ++ evs') = renumber n evs ++ renumber (n + evs.length) evs' := by
  simp [renumber, List.mapIdx_append, Nat.add_comm, Nat.add_left_comm]

/-- The index an event had before is lost. -/
@[simp] theorem renumber_renumber (n m : Nat) (evs : List Event) : renumber n (renumber m evs) = renumber n evs := by
  simp [renumber, List.mapIdx_mapIdx, Function.comp_def]

theorem renumber_getElem? {evs : List Event} {k : Nat} {e : Event} (h : evs[k]? = some e) (n : Nat) :
    (renumber n evs)[k]? = some { e with idx := n + k } := by
  rw [renumber, List.getElem?_mapIdx, h, Option.map_some]

theorem renumber_idx (n : Nat) (evs : List Event) : (renumber n evs).map Event.idx = List.range' n evs.length := by
  induction evs generalizing n with
  | nil => rfl
  | cons e evs ih => simp [ih, List.range'_succ]

/-- Renumbering keeps what does not look at the index. -/
theorem forall_mem_renumber {p : Event → Prop} (hp : ∀ e n, p e → p { e with idx := n }) {evs : List Event}
    (h : ∀ e ∈ evs, p e) (n : Nat) : ∀ e ∈ renumber n evs, p e := by
  induction evs generalizing n with
  | nil => exact nofun
  | cons e evs ih =>
    obtain ⟨he, hevs⟩ := List.forall_mem_cons.1 h
    exact renumber_cons n e evs ▸ List.forall_mem_cons.2 ⟨hp e n he, ih hevs (n + 1)⟩

/-! ### Emitting several events -/

/-- The state after the events of a list are emitted: the log is longer by them and the index moves by their number. -/
def State.emitAll (s : State) (evs : List Event) : State :=
  { s with seq := s.seq + evs.length, log := s.log ++ evs.map .ev }

@[simp] theorem State.emitAll_cfg (s : State) (evs : List Event) : (s.emitAll evs).cfg = s.cfg := rfl
@[simp] theorem State.emitAll_program (s : State) (evs : List Event) : (s.emitAll evs).program = s.program := rfl
@[simp] theorem State.emitAll_calls (s : State) (evs : List Event) : (s.emitAll evs).calls = s.calls := rfl
@[simp] theorem State.emitAll_cmd (s : State) (evs : List Event) : (s.emitAll evs).cmd = s.cmd := rfl
@[simp] theorem State.emitAll_seq (s : State) (evs : List Event) : (s.emitAll evs).seq = s.seq + evs.length := rfl
@[simp] theorem State.emitAll_log (s : State) (evs : List Event) : (s.emitAll evs).log = s.log ++ evs.map .ev := rfl

@[simp] theorem State.emitAll_nil (s : State) : s.emitAll [] = s := by simp [State.emitAll]

theorem State.emitAll_cons (s : State) (e : Event) (evs : List Event) :
    s.emitAll (e :: evs) = ((s.emit e).setSeq (s.seq + 1)).emitAll evs := by
  simp [State.emitAll, State.emit, State.append, State.setSeq, Nat.add_comm, Nat.add_left_comm]

@[simp] theorem State.stopped_emitAll (s : State) (evs : List Event) : (s.emitAll evs).stopped = s.stopped := by
  simp [State.stopped, Function.comp_def, Entry.isOverflow]

/-! ### Room for the next indices -/

/-- The next `k` indices fit the width (R175). -/
def State.HasRoom (s : State) (k : Nat) : Prop := ∀ n ∈ s.cfg.seqWidth, ∀ j < k, s.seq + j < 2 ^ n

theorem State.hasRoom_of_unbounded {s : State} (h : s.cfg.seqWidth = none) (k : Nat) : s.HasRoom k := by
  simp [State.HasRoom, h]

theorem State.hasRoom_of_le {s : State} {k : Nat} (h : ∀ n ∈ s.cfg.seqWidth, s.seq + k ≤ 2 ^ n) : s.HasRoom k :=
  fun n hn j hj => by
    have := h n hn
    omega

theorem State.hasRoom_zero (s : State) : s.HasRoom 0 := fun _ _ _ hj => absurd hj (Nat.not_lt_zero _)

theorem State.HasRoom.mono {s : State} {j k : Nat} (h : s.HasRoom k) (hjk : j ≤ k) : s.HasRoom j :=
  fun n hn i hi => h n hn i (hi.trans_le hjk)

/-- One index more fits when the present one does and the others fit after it. -/
theorem State.hasRoom_succ (s : State) (e : Event) (k : Nat) :
    s.HasRoom (k + 1) ↔ s.indexFits = true ∧ ((s.emit e).setSeq (s.seq + 1)).HasRoom k := by
  rw [State.indexFits_iff]
  constructor
  · refine fun h => ⟨fun n hn => h n hn 0 (Nat.succ_pos k), fun n hn j hj => ?_⟩
    have := h n hn (j + 1) (Nat.succ_lt_succ hj)
    simp only [State.setSeq_seq]
    omega
  · rintro ⟨hfits, hrest⟩ n hn j hj
    cases j with
    | zero => exact hfits n hn
    | succ j =>
      have := hrest n hn j (Nat.lt_of_succ_lt_succ hj)
      simp only [State.setSeq_seq] at this
      omega

/-! ### Delivering several events -/

/-- The loop of a command whose units are decoded already: each event is delivered under the running index. -/
def deliverAll (evs : List Event) (s : State) : State := forEach (fun e s => s.deliver { e with idx := s.seq }) evs s

/-- A loop whose every unit delivers the event of its item is the loop over those events. -/
theorem forEach_eq_deliverAll {α : Type} {unit : α → State → Progress} {event : α → Event} {as : List α}
    (h : ∀ a ∈ as, ∀ s, unit a s = s.deliver { event a with idx := s.seq }) (s : State) :
    forEach unit as s = deliverAll (as.map event) s := by
  induction as generalizing s with
  | nil => rfl
  | cons a as ih =>
    obtain ⟨ha, has⟩ := List.forall_mem_cons.1 h
    simp only [deliverAll, List.map_cons, forEach, ha s]
    cases s.deliver { event a with idx := s.seq } with
    | more t => exact ih has t
    | halt t => rfl

/-- The first pass of the loop emits its event and goes on, or ends the command with SeqOverflow. -/
theorem deliverAll_cons (e : Event) (evs : List Event) (s : State) :
    (s.indexFits = true ∧
      deliverAll (e :: evs) s = deliverAll evs ((s.emit { e with idx := s.seq }).setSeq (s.seq + 1))) ∨
    (s.indexFits = false ∧ deliverAll (e :: evs) s = s.raise ⟨.seqOverflow, s.seq⟩) := by
  obtain ⟨hfits, h⟩ | ⟨hfits, h⟩ := s.deliver_cases { e with idx := s.seq }
  · exact .inl ⟨hfits, forEach_more h⟩
  · exact .inr ⟨hfits, forEach_halt h⟩

/-- Everything the loop can do: emit the first `k` events, numbered from `seq`, whose indices fit, and either these are
all, or the index after them does not fit and SeqOverflow is raised with it. -/
theorem deliverAll_cases (evs : List Event) (s : State) : ∃ k, s.HasRoom k ∧
    ((k = evs.length ∧ deliverAll evs s = s.emitAll (renumber s.seq evs)) ∨
    (k < evs.length ∧ ¬ s.HasRoom (k + 1) ∧
      deliverAll evs s = (s.emitAll (renumber s.seq (evs.take k))).raise ⟨.seqOverflow, s.seq + k⟩)) := by
  induction evs generalizing s with
  | nil => exact ⟨0, s.hasRoom_zero, .inl ⟨rfl, by simp [deliverAll]⟩⟩
  | cons e evs ih =>
    obtain ⟨hfits, hloop⟩ | ⟨hfull, hloop⟩ := deliverAll_cons e evs s
    · obtain ⟨k, hroom, hk⟩ := ih ((s.emit { e with idx := s.seq }).setSeq (s.seq + 1))
      refine ⟨k + 1, (s.hasRoom_succ _ k).2 ⟨hfits, hroom⟩, ?_⟩
      obtain ⟨hlen, heq⟩ | ⟨hlen, hnext, heq⟩ := hk
      · refine .inl ⟨congrArg (· + 1) hlen, ?_⟩
        rw [renumber_cons, State.emitAll_cons]
        exact hloop.trans heq
      · refine .inr ⟨Nat.succ_lt_succ hlen, fun h => hnext ((s.hasRoom_succ _ (k + 1)).1 h).2, ?_⟩
        rw [List.take_succ_cons, renumber_cons, State.emitAll_cons, Nat.add_comm k, ← Nat.add_assoc]
        exact hloop.trans heq
    · refine ⟨0, s.hasRoom_zero, .inr ⟨Nat.succ_pos _, fun h => ?_, by simpa using hloop⟩⟩
      have hfits := ((s.hasRoom_succ e 0).1 h).1
      rw [hfull] at hfits
      cases hfits

/-- While the indices fit, every event is emitted. -/
theorem deliverAll_of_hasRoom {evs : List Event} {s : State} (h : s.HasRoom evs.length) :
    deliverAll evs s = s.emitAll (renumber s.seq evs) := by
  obtain ⟨k, -, ⟨-, heq⟩ | ⟨hk, hfull, -⟩⟩ := deliverAll_cases evs s
  · exact heq
  · exact absurd (h.mono hk) hfull

/-- When the indices run out, the events below the bound are emitted, each in its place and under its index, and
SeqOverflow is raised after them. -/
theorem deliverAll_of_overflow {evs : List Event} {s : State} {n : Nat} (hwidth : s.cfg.seqWidth = some n)
    (hover : 2 ^ n < s.seq + evs.length) (hpos : 0 < evs.length) :
    ∃ fit : List Event, fit.length = 2 ^ n - s.seq ∧ fit.length ≤ evs.length ∧
      (∀ k e, k < fit.length → evs[k]? = some e → fit[k]? = some { e with idx := s.seq + k }) ∧
      deliverAll evs s = (s.emitAll fit).raise ⟨.seqOverflow, s.seq + fit.length⟩ := by
  have hroom_iff (k : Nat) : s.HasRoom k ↔ ∀ j < k, s.seq + j < 2 ^ n := by simp [State.HasRoom, hwidth]
  obtain ⟨k, hroom, ⟨hk, -⟩ | ⟨hk, hfull, heq⟩⟩ := deliverAll_cases evs s
  · have := (hroom_iff k).1 hroom (k - 1) (by omega)
    omega
  · rw [hroom_iff] at hroom hfull
    have hbound : 2 ^ n ≤ s.seq + k := by
      by_contra hlt
      exact hfull fun j hj => by omega
    have hcount : k = 2 ^ n - s.seq := by
      cases k with
      | zero => omega
      | succ k =>
        have := hroom k (Nat.lt_succ_self k)
        omega
    have hlength : (renumber s.seq (evs.take k)).length = k := by rw [renumber_length, List.length_take_of_le hk.le]
    refine ⟨_, hlength.trans hcount, hlength.trans_le hk.le, fun j e hj he => ?_, by rw [hlength, heq]⟩
    exact renumber_getElem? ((List.getElem?_take_of_lt (hlength ▸ hj)).trans he) s.seq

/-! ### The events of a host command -/

/-- The variant of a word by its type code and add bit (R72). -/
def wordVariant (w : Nat) : Variant :=
  match typeCode w with
  | 0 => .data
  | 1 => .sweepTrig
  | 2 => .sweepEvt
  | _ => if addBit w = 0 then .noise else .status

theorem wordVariant_tags {w : Nat} (hw : w < 2 ^ 20) : (wordVariant w).Tags w := by
  obtain ⟨v, hv⟩ := exists_tags hw
  cases v <;> simp_all [wordVariant, Variant.Tags]

/-- The event of a word under index 0. -/
def wordEvent (w : Nat) : Event := (wordVariant w).event w 0

/-- The event of a record under index 0. -/
def recordEvent (r : Rec32) : Event := decodeRecord r.r0 r.r1 r.r2 r.r3 0

theorem variant_event_eq (v : Variant) (w idx : Nat) : v.event w idx = { v.event w 0 with idx := idx } := by
  cases v <;> rfl

theorem decodeWord_eq_wordEvent {w : Nat} (hw : w < 2 ^ 20) (idx : Nat) :
    decodeWord w idx = .ok { wordEvent w with idx := idx } := by
  rw [(wordVariant_tags hw).decodeWord idx, variant_event_eq]
  rfl

theorem wordUnit_eq_deliver {w : Nat} (hw : w < 2 ^ 20) (s : State) :
    wordUnit w s = s.deliver { wordEvent w with idx := s.seq } := by
  simp [wordUnit, decodeWord_eq_wordEvent hw]

theorem recordUnit_eq_deliver (r : Rec32) (s : State) :
    recordUnit r s = s.deliver { recordEvent r with idx := s.seq } := rfl

/-- The events of a host command that meets its duty, under index 0. -/
def commandEvents : HostCommand → List Event
  | .subframe S => ((chunksOf S).flatMap chunkWords).map wordEvent
  | .records B => (recordsOf B).map recordEvent

theorem commandEvents_subframe_length {S : List Byte} (h : S.length = 495) :
    (commandEvents (.subframe S)).length = 198 := by
  rw [commandEvents, List.length_map, chunkWords_chunksOf_length, h]

theorem commandEvents_records_length (B : List Byte) : (commandEvents (.records B)).length = B.length / 4 := by
  rw [commandEvents, List.length_map, recordsOf_length]

theorem exec_subframe_eq_deliverAll {S : List Byte} (h : S.length = 495) (s : State) :
    exec (.subframe S) s = .next ((deliverAll (commandEvents (.subframe S)) s).setOut .idle) := by
  rw [exec_subframe_whole h, forEach_eq_deliverAll fun w hw => wordUnit_eq_deliver (lt_of_mem_chunkWords hw)]
  rfl

theorem exec_records_eq_deliverAll {B : List Byte} (h : B.length % 4 = 0) (s : State) :
    exec (.records B) s = .next ((deliverAll (commandEvents (.records B)) s).setOut .idle) := by
  rw [exec_records_whole h, forEach_eq_deliverAll fun r _ s => recordUnit_eq_deliver r s]
  rfl

theorem commandEvents_inBounds (c : HostCommand) : ∀ e ∈ commandEvents c, e.inBounds := by
  cases c with
  | subframe S => exact List.forall_mem_map.2 fun w _ => Variant.event_inBounds _ w 0
  | records B => exact List.forall_mem_map.2 fun r _ => decodeRecord_inBounds r.r0 r.r1 r.r2 r.r3 0

end Sys2Proof.Machine
end

section
/-!
What SUBFRAME and RECORDS append (43_stream_sequencer.md R171 to R175), and what any instruction does to the log: events
with consecutive indices, and at most one report after them. The invariant of the sequencer's state follows.
-/

namespace Sys2Proof.Machine

/-! ### The events of a command by position -/

/-- Word `k` of a sub-frame gives the command's event `k`. -/
theorem commandEvents_subframe_getElem? {S : List Byte} {k : Nat} (hlen : S.length = 495) (hk : k < 198) :
    ∃ w, ((chunksOf S).flatMap chunkWords)[k]? = some w ∧ (commandEvents (.subframe S))[k]? = some (wordEvent w) ∧
      ∀ idx, decodeWord w idx = .ok { wordEvent w with idx := idx } := by
  have hcount : k < ((chunksOf S).flatMap chunkWords).length := by
    rw [chunkWords_chunksOf_length, hlen]
    exact hk
  have hw := List.getElem?_eq_getElem hcount
  exact ⟨_, hw, by simp only [commandEvents, List.getElem?_map, hw, Option.map_some],
    decodeWord_eq_wordEvent (lt_of_mem_chunkWords (List.getElem_mem hcount))⟩

/-- The bytes from offset `4j` give the command's event `j`. -/
theorem commandEvents_records_getElem? {B : List Byte} {j : Nat} (hj : j < B.length / 4) :
    ∃ r : Rec32, memRead B (4 * j) 4 = some [r.r0, r.r1, r.r2, r.r3] ∧
      (commandEvents (.records B))[j]? = some (recordEvent r) := by
  obtain ⟨r, hr, hread⟩ := recordsOf_getElem? B j hj
  exact ⟨r, hread, by simp only [commandEvents, List.getElem?_map, hr, Option.map_some]⟩

/-! ### The obligations on the two commands -/

/-- Settles O33: 99 chunks give 198 words, there is room for the events of all of them, and event `k` is the event of
word `k` under `seq + k`. -/
theorem subframeDeliversItsEvents : Obligations.SubframeDeliversItsEvents := by
  unfold Obligations.SubframeDeliversItsEvents
  intro S s hlen hfits
  have hcount := commandEvents_subframe_length hlen
  have hroom : s.HasRoom (commandEvents (.subframe S)).length := hcount ▸ State.hasRoom_of_le hfits
  refine ⟨_, renumber s.seq (commandEvents (.subframe S)), unpackSeq_whole (by omega), ?_, by simpa using hcount,
    fun k hk => ?_, ?_⟩
  · rw [chunkWords_chunksOf_length, hlen]
  · obtain ⟨w, hw, hev, hdecode⟩ := commandEvents_subframe_getElem? hlen hk
    exact ⟨w, _, hw, renumber_getElem? hev s.seq, hdecode _, rfl⟩
  · rw [exec_subframe_eq_deliverAll hlen, deliverAll_of_hasRoom hroom, ← hcount, ← renumber_length s.seq]
    rfl

/-- Settles O35: there is room for the events of all records, and event `j` is the event of record `j` under
`seq + j`. -/
theorem recordsDeliverTheirEvents : Obligations.RecordsDeliverTheirEvents := by
  unfold Obligations.RecordsDeliverTheirEvents
  intro B s hlen hfits
  have hcount := commandEvents_records_length B
  have hroom : s.HasRoom (commandEvents (.records B)).length := hcount ▸ State.hasRoom_of_le hfits
  refine ⟨renumber s.seq (commandEvents (.records B)), by simpa using hcount, fun j hj => ?_, ?_⟩
  · obtain ⟨r, hread, hev⟩ := commandEvents_records_getElem? hj
    exact ⟨_, _, _, _, hread, renumber_getElem? hev s.seq⟩
  · rw [exec_records_eq_deliverAll hlen, deliverAll_of_hasRoom hroom, ← hcount, ← renumber_length s.seq]
    rfl

/-- Settles O37: the loop emits the events of the first `2 ^ n - seq` words and raises SeqOverflow at the next. -/
theorem subframeStopsAtSeqOverflow : Obligations.SubframeStopsAtSeqOverflow := by
  unfold Obligations.SubframeStopsAtSeqOverflow
  intro S s n hlen hwidth hover
  have hcount := commandEvents_subframe_length hlen
  obtain ⟨evs, hfit, hle, hev, hloop⟩ :=
    deliverAll_of_overflow (evs := commandEvents (.subframe S)) hwidth (by rwa [hcount]) (by omega)
  refine ⟨_, evs, unpackSeq_whole (by omega), hfit, fun k hk => ?_, ?_⟩
  · obtain ⟨w, hw, he, hdecode⟩ := commandEvents_subframe_getElem? hlen (hk.trans_le (hle.trans_eq hcount))
    exact ⟨w, _, hw, hev k _ hk he, hdecode _⟩
  · rw [exec_subframe_eq_deliverAll hlen, hloop]
    rfl

/-- Settles O38: the loop emits the events of the first `2 ^ n - seq` records and raises SeqOverflow at the next. -/
theorem recordsStopAtSeqOverflow : Obligations.RecordsStopAtSeqOverflow := by
  unfold Obligations.RecordsStopAtSeqOverflow
  intro B s n hlen hwidth hover hne
  have hcount := commandEvents_records_length B
  have hpos := List.length_pos_iff.2 hne
  obtain ⟨evs, hfit, hle, hev, hloop⟩ :=
    deliverAll_of_overflow (evs := commandEvents (.records B)) hwidth (by rwa [hcount]) (by omega)
  refine ⟨evs, hfit, fun j hj => ?_, ?_⟩
  · obtain ⟨r, hread, he⟩ := commandEvents_records_getElem? (hj.trans_le (hle.trans_eq hcount))
    exact ⟨_, _, _, _, hread, hev j _ hj he⟩
  · rw [exec_records_eq_deliverAll hlen, hloop]
    rfl

/-- Settles O34: the command is skipped with the report of its length. -/
theorem wrongSubframeLengthIsSkipped : Obligations.WrongSubframeLengthIsSkipped := by
  unfold Obligations.WrongSubframeLengthIsSkipped
  exact fun S s h => exec_subframe_wrongLength h s

/-- Settles O36: the command is skipped with the report of its length. -/
theorem wrongRecordLengthIsSkipped : Obligations.WrongRecordLengthIsSkipped := by
  unfold Obligations.WrongRecordLengthIsSkipped
  exact fun B s h => exec_records_partial h s

/-- Settles O39: the word raises UnreachableCode, and skipping its event reads the parameter. -/
theorem skippedEventIndex : Obligations.SkippedEventIndex := by
  unfold Obligations.SkippedEventIndex
  intro w s hw
  simp only [wordUnit, decodeWord_of_wide hw, State.skipEvent]
  cases s.cfg.skipConsumesIndex <;> rfl

/-! ### What an instruction appends -/

/-- Events that may follow in this state: indices consecutive from `seq` and within the width, fields in bounds. -/
structure State.Admits (s : State) (evs : List Event) : Prop where
  indices : evs.map Event.idx = List.range' s.seq evs.length
  room : s.HasRoom evs.length
  bounds : ∀ e ∈ evs, e.inBounds

theorem State.admits_nil (s : State) : s.Admits [] := ⟨rfl, s.hasRoom_zero, nofun⟩

theorem State.admits_renumber {s : State} {evs : List Event} (hroom : s.HasRoom evs.length)
    (hbounds : ∀ e ∈ evs, e.inBounds) : s.Admits (renumber s.seq evs) where
  indices := by rw [renumber_idx, renumber_length]
  room := by rwa [renumber_length]
  bounds := forall_mem_renumber (fun _ _ he => he) hbounds s.seq

theorem State.Admits.idx_lt {s : State} {evs : List Event} (h : s.Admits evs) {n : Nat} (hn : n ∈ s.cfg.seqWidth)
    {e : Event} (he : e ∈ evs) : e.idx < 2 ^ n := by
  have hidx : e.idx ∈ List.range' s.seq evs.length := h.indices ▸ List.mem_map_of_mem he
  obtain ⟨hle, hlt⟩ := List.mem_range'_1.1 hidx
  have := h.room n hn (e.idx - s.seq) (by omega)
  omega

/-- From `s` to `t` some admitted events are appended, then at most one report, and a SeqOverflow report carries the
index at which the events end; besides, only the output field is written. -/
def State.Appends (s t : State) (evs : List Event) : Prop :=
  s.Admits evs ∧ ∃ out, t = (s.emitAll evs).setOut out ∨
    ∃ e : Raised, (e.name = .seqOverflow → e.info = s.seq + evs.length) ∧ t = ((s.emitAll evs).raise e).setOut out

theorem State.appends_setOut (s : State) (out : Output) : s.Appends (s.setOut out) [] :=
  ⟨s.admits_nil, out, .inl (by rw [State.emitAll_nil])⟩

theorem State.appends_raise (s : State) {e : Raised} (he : e.name ≠ .seqOverflow) (out : Output) :
    s.Appends ((s.raise e).setOut out) [] :=
  ⟨s.admits_nil, out, .inr ⟨e, fun h => absurd h he, by rw [State.emitAll_nil]⟩⟩

theorem deliverAll_appends {evs : List Event} (hbounds : ∀ e ∈ evs, e.inBounds) (s : State) (out : Output) :
    ∃ evs', s.Appends ((deliverAll evs s).setOut out) evs' := by
  obtain ⟨k, hroom, ⟨rfl, heq⟩ | ⟨hk, -, heq⟩⟩ := deliverAll_cases evs s
  · exact ⟨_, State.admits_renumber hroom hbounds, out, .inl (by rw [heq])⟩
  · have hlength := List.length_take_of_le hk.le
    refine ⟨renumber s.seq (evs.take k), State.admits_renumber (by rwa [hlength]) fun e he => ?_, out, .inr
      ⟨_, fun _ => ?_, by rw [heq]⟩⟩
    · exact hbounds e (List.mem_of_mem_take he)
    · rw [renumber_length, hlength]

/-- Everything a host command can be: skipped with the one report of its length, or the loop over its events. -/
theorem hostCommand_cases {i : Instr} (h : isHostCommand (encode i) = true) :
    (∃ e : Raised, e.name ≠ .seqOverflow ∧ ∀ s, exec i s = .next ((s.raise e).setOut .idle)) ∨
    (∃ c : HostCommand, ∀ s, exec i s = .next ((deliverAll (commandEvents c) s).setOut .idle)) := by
  cases i with
  | subframe bytes =>
    by_cases hlen : bytes.length = 495
    · exact .inr ⟨_, exec_subframe_eq_deliverAll hlen⟩
    · exact .inl ⟨⟨.subframeLength, _⟩, nofun, exec_subframe_wrongLength hlen⟩
  | records bytes =>
    by_cases hlen : bytes.length % 4 = 0
    · exact .inr ⟨_, exec_records_eq_deliverAll hlen⟩
    · exact .inl ⟨⟨.recordLength, _⟩, nofun, exec_records_partial hlen⟩
  | _ => cases h

/-- A unit operation completes without events; a host command is skipped with one report or delivers its events. -/
theorem exec_appends {i : Instr} {s t : State} (h : exec i s = .next t) : ∃ evs, s.Appends t evs := by
  cases hhost : isHostCommand (encode i) with
  | false =>
    obtain ⟨α, result, field, hi, herr⟩ := completes_of_unitOperation hhost
    rw [hi] at h
    obtain ⟨a, -, rfl⟩ | ⟨e, he, rfl⟩ := complete_cases h
    · exact ⟨[], s.appends_setOut _⟩
    · have hname : e.name ≠ .seqOverflow := by
        obtain hn | hn := herr e he <;> simp [hn]
      exact ⟨[], s.appends_raise hname _⟩
  | true =>
    obtain ⟨e, hname, hi⟩ | ⟨c, hi⟩ := hostCommand_cases hhost <;> rw [hi] at h <;> cases h
    · exact ⟨[], s.appends_raise hname _⟩
    · exact deliverAll_appends (commandEvents_inBounds c) s _

/-- Settles O40: the events appended are admitted, and a report after them is no event and leaves the index. -/
theorem emittedIndicesAreConsecutive : Obligations.EmittedIndicesAreConsecutive := by
  unfold Obligations.EmittedIndicesAreConsecutive
  intro i s t h
  obtain ⟨evs, hadmits, out, rfl | ⟨e, -, rfl⟩⟩ := exec_appends h
  · exact ⟨evs, by simp, hadmits.indices, rfl⟩
  · exact ⟨evs, by simp, hadmits.indices, rfl⟩

/-! ### The invariant -/

theorem State.Consistent.emitAll {s : State} {evs : List Event} (h : s.Consistent) (hadmits : s.Admits evs) :
    (s.emitAll evs).Consistent where
  indices := by
    simp only [emitAll_log, emitAll_cfg, eventCount, eventsOf_append, eventsOf_map_ev, List.map_append,
      List.length_append]
    rw [h.indices, hadmits.indices, h.next, eventCount, List.range'_append_1]
  next := by
    have := h.next
    simp only [emitAll_seq, emitAll_cfg, emitAll_log, eventCount, eventsOf_append, eventsOf_map_ev,
      List.length_append] at this ⊢
    omega
  fits := fun n hn e he => by
    simp only [emitAll_log, eventsOf_append, eventsOf_map_ev, List.mem_append] at he
    exact he.elim (h.fits n hn e) (hadmits.idx_lt hn)
  bounds := fun e he => by
    simp only [emitAll_log, eventsOf_append, eventsOf_map_ev, List.mem_append] at he
    exact he.elim (h.bounds e) (hadmits.bounds e)
  reports := fun r hr => by
    simp only [emitAll_log, reportsOf_append, reportsOf_map_ev, List.append_nil] at hr
    obtain ⟨hcode, hcmd, hseq⟩ := h.reports r hr
    exact ⟨hcode, hcmd, hseq.trans (Nat.le_add_right _ _)⟩

/-- A report adds no event, and carries the pointer and the index of its state. -/
theorem State.Consistent.raise {s : State} (h : s.Consistent) (e : Raised) : (s.raise e).Consistent := by
  have hevents : eventsOf (s.raise e).log = eventsOf s.log := by simp
  have hcount : eventCount (s.raise e).log = eventCount s.log := congrArg List.length hevents
  refine ⟨?_, ?_, ?_, ?_, fun r hr => ?_⟩
  · rw [hevents, hcount]
    exact h.indices
  · rw [hcount]
    exact h.next
  · rw [hevents]
    exact h.fits
  · rw [hevents]
    exact h.bounds
  · simp only [raise_log, reportsOf_append, reportsOf_err, List.mem_append, List.mem_singleton] at hr
    obtain hr | rfl := hr
    · exact h.reports r hr
    · exact ⟨rfl, Nat.le_refl _, Nat.le_refl _⟩

theorem State.Consistent.setOut {s : State} (h : s.Consistent) (out : Output) : (s.setOut out).Consistent :=
  ⟨h.indices, h.next, h.fits, h.bounds, h.reports⟩

theorem State.Consistent.setCalls {s : State} (h : s.Consistent) (us : List UnitCall) : (s.setCalls us).Consistent :=
  ⟨h.indices, h.next, h.fits, h.bounds, h.reports⟩

theorem State.Consistent.advance {s : State} (h : s.Consistent) : s.advance.Consistent := by
  obtain ⟨-, heq⟩ | ⟨-, heq⟩ := s.advance_cases <;> rw [heq]
  · exact h
  · refine ⟨h.indices, h.next, h.fits, h.bounds, fun r hr => ?_⟩
    obtain ⟨hcode, hcmd, hseq⟩ := h.reports r hr
    exact ⟨hcode, Nat.le_succ_of_le hcmd, hseq⟩

theorem State.Consistent.exec {i : Instr} {s t : State} (h : s.Consistent) (hexec : exec i s = .next t) :
    t.Consistent := by
  obtain ⟨evs, hadmits, out, rfl | ⟨e, -, rfl⟩⟩ := exec_appends hexec
  · exact (h.emitAll hadmits).setOut out
  · exact ((h.emitAll hadmits).raise e).setOut out

/-- Settles O46: consuming a call, executing an instruction and moving the pointer each keep the invariant. -/
theorem stepKeepsConsistent : Obligations.StepKeepsConsistent := by
  unfold Obligations.StepKeepsConsistent
  intro s t hs h
  obtain ⟨-, ⟨u, rest, i, -, -, hexec⟩ | ⟨c, i, v, -, -, -, hexec, rfl⟩⟩ := step_cases h
  · exact (hs.setCalls rest).exec hexec
  · exact (hs.exec hexec).advance

end Sys2Proof.Machine
end

section
/-!
Steps and runs (43_stream_sequencer.md R170, R175, R177, R178): which step a state has, how a SeqOverflow ends a run and
how the program's end does, and the run of a program whose commands meet their duty as the merge of their events.
-/

namespace Sys2Proof.Machine

/-! ### Which step a state has -/

theorem step_of_stopped {s : State} (h : s.stopped = true) : step s = .fault .stopped := by
  simp [step, h]

theorem step_of_call {s : State} {u : UnitCall} {rest : List UnitCall} {i : Instr} (hstop : s.stopped = false)
    (hcalls : s.calls = u :: rest) (hi : decode (.call u) = .ok i) : step s = exec i (s.setCalls rest) := by
  simp [step, hstop, State.nextRequest_call hcalls, hi]

theorem step_of_command {s : State} {c : HostCommand} {i : Instr} (hstop : s.stopped = false) (hcalls : s.calls = [])
    (hc : s.program[s.cmd]? = some c) (hi : decode (.command c) = .ok i) :
    step s = finish (.command c) (exec i s) := by
  simp [step, hstop, State.nextRequest_command hcalls, hc, hi]

theorem step_of_programEnd {s : State} (hstop : s.stopped = false) (hcalls : s.calls = [])
    (hend : s.program.length ≤ s.cmd) : step s = .fault .noCommand := by
  simp [step, hstop, State.nextRequest_command hcalls, List.getElem?_eq_none hend]

/-- Every host command is an instruction (R74). -/
theorem decode_command (c : HostCommand) : ∃ i, decode (.command c) = .ok i := by
  cases c <;> exact ⟨_, rfl⟩

/-- No instruction faults or is refused. -/
theorem exec_next (i : Instr) (s : State) : ∃ t, exec i s = .next t := by
  obtain ⟨α, result, field, hi⟩ | ⟨e, hi⟩ | ⟨words, hi⟩ | ⟨records, hi⟩ := exec_cases i
  · cases result with
    | ok a => exact ⟨_, hi s⟩
    | error e => exact ⟨_, hi s⟩
  · exact ⟨_, hi s⟩
  · exact ⟨_, hi s⟩
  · exact ⟨_, hi s⟩

/-- Settles O53: each form of an instruction answers a next state. -/
theorem everyInstructionAnswersANextState : Obligations.EveryInstructionAnswersANextState := by
  unfold Obligations.EveryInstructionAnswersANextState
  exact exec_next

/-- Settles O2: the step of a command and the step of a call, each by the kind of its execution's answer. -/
theorem stepRunsTheDecodedCommand : Obligations.StepRunsTheDecodedCommand := by
  unfold Obligations.StepRunsTheDecodedCommand
  refine fun s i hstop _ => ⟨fun c hcalls hc hi => ?_, fun u rest hcalls hi => step_of_call hstop hcalls hi⟩
  rw [step_of_command hstop hcalls hc hi]
  cases exec i s <;> rfl

/-- Settles O3: a stopped state is caught first, and past the program's end there is no next request. -/
theorem noStepAfterTheEnd : Obligations.NoStepAfterTheEnd := by
  unfold Obligations.NoStepAfterTheEnd
  exact ⟨fun s => step_of_stopped, fun s => step_of_programEnd⟩

/-- Settles O32: the placed call is the first that waits, and consuming it gives back the state it was placed in. -/
theorem placedRequestRunsNext : Obligations.PlacedRequestRunsNext := by
  unfold Obligations.PlacedRequestRunsNext
  intro s nbits w u i hstop htable hi
  have hplace : s.withFetchWord nbits w = s.placeCall u := by simp [State.withFetchWord, htable]
  exact ⟨hplace, hplace ▸ step_of_call (s := s.placeCall u) hstop rfl hi⟩

/-! ### The frame of the host commands -/

theorem State.Extends.eq_with {s t : State} (h : s.Extends t) :
    t = { s with seq := t.seq, log := t.log, out := t.out } := by
  obtain ⟨hcfg, hprogram, hcalls, hcmd, -, -⟩ := h
  rw [← hcfg, ← hprogram, ← hcalls, ← hcmd]

/-- A host command has no output fields (10_state.md R24). -/
theorem out_of_hostCommand {i : Instr} {s t : State} (hhost : isHostCommand (encode i) = true)
    (h : exec i s = .next t) : t.out = .idle := by
  obtain ⟨e, -, hi⟩ | ⟨c, hi⟩ := hostCommand_cases hhost <;> rw [hi] at h <;> cases h <;> rfl

/-- Settles O52: the frame of every instruction, with the output field of a host command. -/
theorem hostCommandsFrame : Obligations.HostCommandsFrame := by
  unfold Obligations.HostCommandsFrame
  intro i s t hhost h
  have hext := exec_extends h
  exact ⟨out_of_hostCommand hhost h ▸ hext.eq_with, hext.seq, hext.log⟩

/-! ### The stop of a run -/

/-- An instruction that stops the sequencer appended the SeqOverflow report last (R175). -/
theorem exec_stops {i : Instr} {s t : State} (h : exec i s = .next t) (hs : s.stopped = false)
    (ht : t.stopped = true) :
    t.log.getLast? = some (.err { code := 6, name := .seqOverflow, info := t.seq, cmd := s.cmd, seq := t.seq }) := by
  obtain ⟨evs, -, out, rfl | ⟨e, hinfo, rfl⟩⟩ := exec_appends h
  · simp [hs] at ht
  · obtain ⟨name, info⟩ := e
    have hname : name = .seqOverflow := by simpa [hs] using ht
    subst hname
    simpa [State.report, ErrorName.code] using hinfo rfl

/-- Settles O5: the report stands last after the execution, and a stopped state keeps its pointer and has no step. -/
theorem overflowStopsForGood : Obligations.OverflowStopsForGood := by
  unfold Obligations.OverflowStopsForGood
  intro s t h ht
  obtain ⟨hs, ⟨u, rest, i, -, -, hexec⟩ | ⟨c, i, v, -, -, -, hexec, hv⟩⟩ := step_cases h
  · exact ⟨(exec_extends hexec).cmd, step_of_stopped ht, exec_stops (s := s.setCalls rest) hexec hs ht⟩
  · obtain ⟨-, hadvance⟩ | ⟨hvstop, hadvance⟩ := v.advance_cases
    · rw [hadvance] at hv
      subst hv
      exact ⟨(exec_extends hexec).cmd, step_of_stopped ht, exec_stops hexec hs ht⟩
    · simp [hv, hvstop] at ht

/-- A unit operation raises no SeqOverflow. -/
theorem stopped_of_unitOperation {i : Instr} {s t : State} (hunit : isHostCommand (encode i) = false)
    (h : exec i s = .next t) : t.stopped = s.stopped := by
  obtain ⟨α, result, field, hi, herr⟩ := completes_of_unitOperation hunit
  rw [hi] at h
  obtain ⟨a, -, rfl⟩ | ⟨e, he, rfl⟩ := complete_cases h
  · rfl
  · obtain hn | hn := herr e he <;> simp [hn]

/-! ### Every run ends -/

/-- A state from which a run may go on: not stopped, the pointer within the program, and every waiting unit call one
that the decoder accepts. -/
structure State.Runnable (s : State) : Prop where
  calls : acceptable s.calls = true
  stopped : s.stopped = false
  cmd : s.cmd ≤ s.program.length

/-- The bound of R178 on the steps of a run, and one step for each unit call that waits (log 4). -/
def State.stepsLeft (s : State) : Nat := s.calls.length + (s.program.length - s.cmd)

/-- A unit call that waits runs and leaves one step less. -/
theorem State.Runnable.step_call {s : State} (h : s.Runnable) {u : UnitCall} {rest : List UnitCall}
    (hcalls : s.calls = u :: rest) : ∃ t, step s = .next t ∧ t.Runnable ∧ t.stepsLeft + 1 = s.stepsLeft := by
  obtain ⟨hacc, hstop, hcmd⟩ := h
  have haccept : (decode (.call u)).isOk = true ∧ acceptable rest = true := by
    simpa [acceptable, hcalls] using hacc
  obtain ⟨i, hi⟩ : ∃ i, decode (.call u) = .ok i := by
    cases hd : decode (.call u) with
    | ok i => exact ⟨i, rfl⟩
    | error e => simp [hd, Except.isOk, Except.toBool] at haccept
  have hunit : isHostCommand (encode i) = false := by rw [(decodedRequestsEncodeBack _ _ hi).2, isHostCommand]
  obtain ⟨t, ht⟩ := exec_next i (s.setCalls rest)
  have hext := exec_extends ht
  refine ⟨t, (step_of_call hstop hcalls hi).trans ht, ⟨?_, ?_, ?_⟩, ?_⟩
  · exact hext.calls ▸ haccept.2
  · exact (stopped_of_unitOperation hunit ht).trans hstop
  · rw [hext.cmd, hext.program]
    exact hcmd
  · simp only [State.stepsLeft, hext.calls, hext.cmd, hext.program, hcalls, setCalls_calls, setCalls_program,
      setCalls_cmd, List.length_cons]
    omega

/-- With no call waiting, the command at `cmd` runs and either leaves one step less or stops the sequencer there. -/
theorem State.Runnable.step_command {s : State} (h : s.Runnable) (hcalls : s.calls = [])
    (hcmd : s.cmd < s.program.length) : ∃ t, step s = .next t ∧
      ((t.Runnable ∧ t.stepsLeft + 1 = s.stepsLeft) ∨
      (t.calls = [] ∧ t.stopped = true ∧ t.cmd < t.program.length)) := by
  obtain ⟨i, hi⟩ := decode_command s.program[s.cmd]
  obtain ⟨v, hv⟩ := exec_next i s
  have hext := exec_extends hv
  refine ⟨v.advance, ?_, ?_⟩
  · rw [step_of_command h.stopped hcalls (List.getElem?_eq_getElem hcmd) hi, hv, finish_command_next]
  · obtain ⟨hvstop, heq⟩ | ⟨hvstop, heq⟩ := v.advance_cases <;> rw [heq]
    · exact .inr ⟨hext.calls.trans hcalls, hvstop, by rwa [hext.cmd, hext.program]⟩
    · refine .inl ⟨⟨?_, hvstop, ?_⟩, ?_⟩
      · exact hext.calls ▸ h.calls
      · simpa [hext.cmd, hext.program] using hcmd
      · simp only [State.stepsLeft, setCmd_calls, setCmd_program, setCmd_cmd, hext.calls, hext.program, hext.cmd]
        omega

/-- A runnable state has no steps left, or a step that leaves one less or stops the sequencer at a command. -/
theorem State.Runnable.step_cases {s : State} (h : s.Runnable) :
    (s.calls = [] ∧ s.cmd = s.program.length) ∨
    (s.stepsLeft ≠ 0 ∧ ∃ t, step s = .next t ∧ ((t.Runnable ∧ t.stepsLeft + 1 = s.stepsLeft) ∨
      (t.calls = [] ∧ t.stopped = true ∧ t.cmd < t.program.length))) := by
  cases hcalls : s.calls with
  | cons u rest =>
    obtain ⟨t, ht, hrun, hleft⟩ := h.step_call hcalls
    exact .inr ⟨hleft ▸ Nat.succ_ne_zero _, t, ht, .inl ⟨hrun, hleft⟩⟩
  | nil =>
    obtain hcmd | hcmd := Nat.lt_or_eq_of_le h.cmd
    · have hleft : s.stepsLeft ≠ 0 := by
        unfold State.stepsLeft
        omega
      exact .inr ⟨hleft, h.step_command hcalls hcmd⟩
    · exact .inl ⟨rfl, hcmd⟩

/-- By induction on the steps left. -/
theorem State.Runnable.ends {s : State} (h : s.Runnable) : ∃ k t, k ≤ s.stepsLeft ∧ core.run k s = .next t ∧
    t.calls = [] ∧ (t.completed = true ∨ (t.stopped = true ∧ t.cmd < t.program.length)) := by
  induction hm : s.stepsLeft using Nat.strong_induction_on generalizing s with
  | _ m ih =>
    obtain ⟨hcalls, hcmd⟩ | ⟨hleft, t, ht, ⟨hrun, hless⟩ | ⟨hcalls, hend⟩⟩ := h.step_cases
    · exact ⟨0, s, Nat.zero_le _, core_run_zero s, hcalls, .inl (by simp [State.completed, hcmd, h.stopped])⟩
    · obtain ⟨k, u, hk, hu⟩ := ih _ (by omega) hrun rfl
      exact ⟨k + 1, u, by omega, by rwa [core_run_succ k ht]⟩
    · exact ⟨1, t, by omega, core_run_succ 0 ht, hcalls, .inr hend⟩

/-- Settles O6: the bound is the number of steps left in a runnable state. -/
theorem everyRunEnds : Obligations.EveryRunEnds := by
  unfold Obligations.EveryRunEnds
  exact fun s hacc hstop hcmd => State.Runnable.ends ⟨hacc, hstop, hcmd⟩

/-! ### Commands that meet their duty, with an unbounded index -/

/-- With an unbounded index a dutiful command emits its events, numbered from `seq`, and nothing else. -/
theorem exec_dutiful {c : HostCommand} {i : Instr} {s : State} (hi : decode (.command c) = .ok i)
    (hduty : meetsDuty c = true) (hwidth : s.cfg.seqWidth = none) :
    exec i s = .next ((s.emitAll (renumber s.seq (commandEvents c))).setOut .idle) := by
  have hloop := deliverAll_of_hasRoom (evs := commandEvents c) (State.hasRoom_of_unbounded hwidth _)
  rw [← hloop]
  cases c with
  | subframe S =>
    cases hi
    exact exec_subframe_eq_deliverAll (by simpa [meetsDuty] using hduty) s
  | records B =>
    cases hi
    exact exec_records_eq_deliverAll (by simpa [meetsDuty] using hduty) s

theorem eventsAlone_eq_renumber {c : HostCommand} (hduty : meetsDuty c = true) :
    eventsAlone c = renumber 0 (commandEvents c) := by
  obtain ⟨i, hi⟩ := decode_command c
  have hexec := exec_dutiful (s := State.reset) hi hduty rfl
  simp only [eventsAlone, hi, Except.toOption, hexec, State.setOut_log, State.emitAll_log, eventsOf_append,
    eventsOf_map_ev]
  rfl

/-- Settles O44: from index 0 the command appends its events numbered from 0, so from index `n` it appends the same,
numbered from `n`. -/
theorem commandIsRenumberable : Obligations.CommandIsRenumberable := by
  unfold Obligations.CommandIsRenumberable
  intro c i s t P hi hduty hwidth _ hexec hlog n
  rw [exec_dutiful hi hduty hwidth] at hexec
  cases hexec
  obtain rfl : (renumber s.seq (commandEvents c)).map Entry.ev = P := List.append_cancel_left hlog
  rw [exec_dutiful (s := { s with seq := n }) hi hduty hwidth]
  simp [State.emitAll, State.setOut]

/-- A step at a dutiful command: the pointer moves by one, and the events of the command alone are appended, numbered
from `seq`. -/
theorem step_dutiful {s : State} {c : HostCommand} (hwidth : s.cfg.seqWidth = none) (hcalls : s.calls = [])
    (hstop : s.stopped = false) (hc : s.program[s.cmd]? = some c) (hduty : meetsDuty c = true) :
    step s = .next (((s.emitAll (renumber s.seq (eventsAlone c))).setOut .idle).setCmd (s.cmd + 1)) := by
  obtain ⟨i, hi⟩ := decode_command c
  rw [step_of_command hstop hcalls hc hi, exec_dutiful hi hduty hwidth, eventsAlone_eq_renumber hduty,
    renumber_renumber, finish_command_next, State.advance, State.stopped_setOut, State.stopped_emitAll, hstop]
  rfl

/-- The run over the dutiful commands that are left appends the merge of their events, numbered from `seq`, and ends
with the pointer after them (R177). -/
theorem run_dutiful {rest : List HostCommand} {s : State} (hwidth : s.cfg.seqWidth = none) (hcalls : s.calls = [])
    (hstop : s.stopped = false) (hrest : s.program.drop s.cmd = rest) (hduty : rest.all meetsDuty = true) :
    ∃ t, core.run rest.length s = .next t ∧ t.stopped = false ∧ t.program = s.program ∧
      t.cmd = s.cmd + rest.length ∧ t.log = s.log ++ (renumber s.seq (rest.flatMap eventsAlone)).map .ev := by
  induction rest generalizing s with
  | nil => exact ⟨s, core_run_zero s, hstop, rfl, rfl, by simp⟩
  | cons c rest ih =>
    have hc : s.program[s.cmd]? = some c := by
      rw [← List.head?_drop, hrest, List.head?_cons]
    have hdrop : s.program.drop (s.cmd + 1) = rest := by
      rw [← List.tail_drop, hrest, List.tail_cons]
    obtain ⟨hcduty, hrestduty⟩ : meetsDuty c = true ∧ rest.all meetsDuty = true := by simpa using hduty
    have hstep := step_dutiful hwidth hcalls hstop hc hcduty
    obtain ⟨t, hrun, htstop, hprogram, hcmd, hlog⟩ :=
      ih (s := ((s.emitAll (renumber s.seq (eventsAlone c))).setOut .idle).setCmd (s.cmd + 1)) hwidth hcalls
        (by simpa using hstop) hdrop hrestduty
    refine ⟨t, (core_run_succ _ hstep).trans hrun, htstop, hprogram, ?_, ?_⟩
    · simp [hcmd, Nat.add_assoc, Nat.add_comm 1]
    · simp [hlog, renumber_append]

/-- Settles O45: the run over the whole program from reset, whose log holds events only. -/
theorem sequentialRunIsTheMergedDecode : Obligations.SequentialRunIsTheMergedDecode := by
  unfold Obligations.SequentialRunIsTheMergedDecode
  intro cfg P hwidth hduty
  obtain ⟨t, hrun, hstop, hprogram, hcmd, hlog⟩ :=
    run_dutiful (s := (State.resetWith cfg).load P) hwidth rfl rfl List.drop_zero hduty
  refine ⟨t, hrun, ?_, hlog⟩
  simp [State.clean, State.completed, hstop, hprogram, hcmd, hlog]

end Sys2Proof.Machine
end

section
/-!
Error reports (60_exceptions.md R200, R201, R204, R205): both statements read off what `exec_appends` says an instruction
appends, its events and then at most one report, raised in the state those events lead to.
-/

namespace Sys2Proof.Machine

/-- Settles O42: after the events comes nothing, or the one report of the error raised there. -/
theorem errorIsSingleAndLast : Obligations.ErrorIsSingleAndLast := by
  unfold Obligations.ErrorIsSingleAndLast
  intro i s t h
  obtain ⟨evs, -, out, rfl | ⟨e, -, rfl⟩⟩ := exec_appends h
  · exact ⟨evs, [], by simp, Nat.zero_le 1⟩
  · exact ⟨evs, [(s.emitAll evs).report e], by simp, Nat.le_refl 1⟩

/-- Settles O43: the events before the report leave the pointer, and raising it leaves the index they end at. -/
theorem reportsTellWhereTheyWereRaised : Obligations.ReportsTellWhereTheyWereRaised := by
  unfold Obligations.ReportsTellWhereTheyWereRaised
  intro i s t h r hr
  obtain ⟨evs, -, out, rfl | ⟨e, -, rfl⟩⟩ := exec_appends h
  · simp at hr
  · obtain rfl : r = (s.emitAll evs).report e := by simpa using hr
    exact ⟨rfl, rfl, rfl⟩

end Sys2Proof.Machine
end

section
/-!
Reset and the host's duties (70_reset_and_hazards.md R230, R233, R236): the values after reset, the invariant they meet,
and the clean run of a program that meets the host's duties.
-/

namespace Sys2Proof.Machine

/-- Only a SeqOverflow report stops the sequencer (R175), so a log of events alone has not. -/
theorem State.stopped_of_reportsOf_nil {s : State} (h : reportsOf s.log = []) : s.stopped = false := by
  rw [State.stopped, List.any_eq_false]
  intro e he
  cases e with
  | ev ev => exact Bool.false_ne_true
  | err r => exact absurd (List.filterMap_eq_nil_iff.1 h _ he) (Option.some_ne_none r)

/-- Settles O7: `run_dutiful` over the commands left, which appends events only to a log without reports. -/
theorem dutifulHostGetsACleanRun : Obligations.DutifulHostGetsACleanRun := by
  unfold Obligations.DutifulHostGetsACleanRun
  intro s hwidth hcalls hduty hreports hcmd
  have hduty_left : (s.program.drop s.cmd).all meetsDuty = true :=
    List.all_eq_true.2 fun c hc => List.all_eq_true.1 hduty c (List.mem_of_mem_drop hc)
  obtain ⟨t, hrun, hstop, hprogram, hend, hlog⟩ :=
    run_dutiful hwidth hcalls (State.stopped_of_reportsOf_nil hreports) rfl hduty_left
  rw [List.length_drop] at hrun hend
  have hcompleted : t.cmd = t.program.length := by rw [hend, hprogram, Nat.add_sub_cancel' hcmd]
  exact ⟨t, hrun, by simp [State.clean, State.completed, hcompleted, hstop, hlog, hreports]⟩

/-- Settles O1: the reset state is written out with these values. -/
theorem resetLeavesTheSpecValues : Obligations.ResetLeavesTheSpecValues := by
  unfold Obligations.ResetLeavesTheSpecValues
  exact ⟨fun cfg => ⟨rfl, rfl, rfl, rfl⟩, rfl, rfl, rfl, rfl, rfl⟩

/-- A state whose log is empty and whose index is `SEQ_START` meets the invariant: it has no event and no report. -/
theorem State.Consistent.of_log_nil {s : State} (hlog : s.log = []) (hseq : s.seq = s.cfg.seqStart) :
    s.Consistent where
  indices := by rw [hlog]; rfl
  next := by rw [hlog]; exact hseq
  fits := by rw [hlog]; exact fun _ _ => nofun
  bounds := by rw [hlog]; exact nofun
  reports := by rw [hlog]; exact nofun

/-- Settles O47: loading a program leaves the empty log and the index of reset. -/
theorem resetIsConsistent : Obligations.ResetIsConsistent := by
  unfold Obligations.ResetIsConsistent
  exact fun cfg P => .of_log_nil rfl rfl

end Sys2Proof.Machine
end
